-- ==== Sys2Proof/Word.lean ====
section
/-! DEFINITION. The machine's basic types: words, addresses, bytes, lines, register names (00_scope.md R6, R7; 30_encoding.md R70). -/

namespace Sys2Proof

/-- A `Word`: `W = 32` bits, two's complement (00_scope.md R6, R7). Its value is `BitVec.toInt`. -/
abbrev Word := BitVec 32

/-- An `Addr`: `ADDR_WIDTH = 16` bits, so every value names one of the 65536 words (00_scope.md R6; 41_execution_engine.md R132). -/
abbrev Addr := BitVec 16

/-- One byte of program text (30_encoding.md R71). -/
abbrev Byte := BitVec 8

/-- A line of the program store: a byte string without its terminator (30_encoding.md R70). -/
abbrev Line := List Byte

/-- A token: a run of non-whitespace bytes (30_encoding.md R72). It may be empty after comma stripping (R101). -/
abbrev Token := List Byte

/-- The register names `REG_NAMES`, in index order (10_state.md R20). -/
inductive Reg where
  | ax | bx | cx | dx
deriving DecidableEq, Repr

end Sys2Proof
end

