-- ==== Sys2Proof/Config.lean ====
section
/-! DEFINITION. The parameters of the block (00_scope.md R6): the ones the spec fixes, and the OPEN ones, which the model takes as an argument. -/

namespace Sys2Proof.Config

/-- `MEM_SIZE`, the number of data-memory words (00_scope.md R6; 10_state.md R27). -/
def memSize : Nat := 65536

/-- The OPEN parameters of 00_scope.md R6 (92_eei_decisions.md D5, D18): every statement about them is for every value. -/
structure Params where
  /-- `REG_INIT`: the value of each register after power-on reset (D5). -/
  regInit : Reg → Word
  /-- `PROG_MAX`: the most lines a program may hold (D18). -/
  progMax : Nat
  /-- `LINE_MAX`: the most bytes a program line may hold (D18). -/
  lineMax : Nat

/-- The bounds 00_scope.md R6 puts on the parameters: `PROG_MAX ≥ 1`, `LINE_MAX ≥ 3`. -/
def Params.Legal (p : Params) : Prop := 1 ≤ p.progMax ∧ 3 ≤ p.lineMax

/-- The reference configuration of 00_scope.md R6.
DESIGN CHOICE, unsafe (log 1): `REG_INIT` is 0 here, and `State.reset` takes it. -/
def reference : Params := { regInit := fun _ => 0, progMax := 65536, lineMax := 256 }

/-- `PC_WIDTH`: the smallest `k` with `2 ^ k > PROG_MAX` (00_scope.md R6). -/
def pcWidth (p : Params) : Nat := if p.progMax = 0 then 0 else p.progMax.log2 + 1

end Sys2Proof.Config
end

