-- ==== Sys2Proof/Syntax.lean ====
section
/-! DEFINITION. The decoded instruction of 30_encoding.md R88: operands, opcodes, and one constructor of `Instr` per row of the opcode table. -/

namespace Sys2Proof

/-- A classified operand (30_encoding.md R80, R88). `NONE`, the operand that `HLT` and `UNKNOWN` lack, is the absence of one. -/
inductive Operand where
  /-- `REG(r)`: a register (R82). -/
  | reg (r : Reg)
  /-- `MEM(a)`: the data-memory word at a literal address (R83). -/
  | mem (a : Addr)
  /-- `IMM(v)`: an immediate (R84). -/
  | imm (v : Word)
deriving DecidableEq, Repr

/-- The opcodes of 30_encoding.md R76, `UNKNOWN` among them. -/
inductive Opcode where
  | mov | add | sub | mul | div | hlt | unknown
deriving DecidableEq, Repr

/-- The instructions: one constructor per row of the opcode table (30_encoding.md R76, R88). -/
inductive Instr where
  /-- `MOV dest, src` (42_data_movement.md R150). -/
  | mov (d1 d2 : Operand)
  /-- `ADD a, b` (43_arithmetic.md R161). -/
  | add (d1 d2 : Operand)
  /-- `SUB a, b` (43_arithmetic.md R162). -/
  | sub (d1 d2 : Operand)
  /-- `MUL a, b` (43_arithmetic.md R163). -/
  | mul (d1 d2 : Operand)
  /-- `DIV a, b` (43_arithmetic.md R164). -/
  | div (d1 d2 : Operand)
  /-- `HLT` (44_control.md R180). -/
  | hlt
  /-- Any line whose mnemonic is none of the six (44_control.md R181). -/
  | unknown
deriving DecidableEq, Repr

/-- The opcode of an instruction (30_encoding.md R76). -/
def Instr.opcode : Instr → Opcode
  | .mov _ _ => .mov
  | .add _ _ => .add
  | .sub _ _ => .sub
  | .mul _ _ => .mul
  | .div _ _ => .div
  | .hlt => .hlt
  | .unknown => .unknown

end Sys2Proof
end

