-- ==== Sys2Proof/WellFormed.lean ====
section
/-! DEFINITION. Which instructions the encoding admits (30_encoding.md R79). -/

namespace Sys2Proof

/-- A destination is a register or a memory word, never an immediate (30_encoding.md R79; 40_operand_resolver.md R107). -/
def Operand.isDestination : Operand → Bool
  | .reg _ => true
  | .mem _ => true
  | .imm _ => false

/-- The one check the operand types leave to make: the first operand of `MOV` is a destination (30_encoding.md R79).
Register names, address range and immediate range are already right by type. -/
def Instr.wf : Instr → Bool
  | .mov d1 _ => d1.isDestination
  | .add _ _ => true
  | .sub _ _ => true
  | .mul _ _ => true
  | .div _ _ => true
  | .hlt => true
  | .unknown => true

end Sys2Proof
end

