-- ==== Sys2Proof/Decode.lean ====
section
/-! DEFINITION. The text decoder of 30_encoding.md (R70 to R91) with the classifier of 40_operand_resolver.md (R101), the encoder into the canonical spelling, and the packed decoded word (R89, R90). -/

namespace Sys2Proof

/-! ## Lines and tokens -/

/-- The whitespace bytes `WS` (30_encoding.md R71). -/
def isWhitespace (b : Byte) : Bool :=
  b == 0x09 || b == 0x0A || b == 0x0B || b == 0x0C || b == 0x0D || b == 0x20

/-- Puts a token in front of a list of tokens, unless it is empty. -/
def consToken (t : Token) (ts : List Token) : List Token :=
  if t = [] then ts else t :: ts

/-- The run of token bytes a line opens with, and the tokens after it. -/
def splitTokens : Line → Token × List Token
  | [] => ([], [])
  | b :: bs =>
    if isWhitespace b then ([], consToken (splitTokens bs).1 (splitTokens bs).2)
    else (b :: (splitTokens bs).1, (splitTokens bs).2)

/-- `tokens(line)`: the maximal runs of token bytes, in order (30_encoding.md R72). -/
def tokens (line : Line) : List Token :=
  consToken (splitTokens line).1 (splitTokens line).2

/-- A line with no token is blank (30_encoding.md R73). -/
def isBlank (line : Line) : Bool := (tokens line).isEmpty

/-! ## Mnemonics -/

/-- The bytes of a mnemonic token (30_encoding.md R76); for `UNKNOWN`, which has none of its own, the token the encoder writes (log 13). -/
def Opcode.token : Opcode → Token
  | .mov => [0x4D, 0x4F, 0x56]
  | .add => [0x41, 0x44, 0x44]
  | .sub => [0x53, 0x55, 0x42]
  | .mul => [0x4D, 0x55, 0x4C]
  | .div => [0x44, 0x49, 0x56]
  | .hlt => [0x48, 0x4C, 0x54]
  | .unknown => [0x55, 0x4E, 0x4B, 0x4E, 0x4F, 0x57, 0x4E]

/-- `OPCODE(token)`: exact bytewise equality with one of the six mnemonics, else `UNKNOWN` (30_encoding.md R76, R77). -/
def Opcode.ofToken (t : Token) : Opcode :=
  if t = [0x4D, 0x4F, 0x56] then .mov
  else if t = [0x41, 0x44, 0x44] then .add
  else if t = [0x53, 0x55, 0x42] then .sub
  else if t = [0x4D, 0x55, 0x4C] then .mul
  else if t = [0x44, 0x49, 0x56] then .div
  else if t = [0x48, 0x4C, 0x54] then .hlt
  else .unknown

/-- `ARITY` (30_encoding.md R78); `none` for `UNKNOWN`, whose operands are not counted (R77). -/
def Opcode.arity : Opcode → Option Nat
  | .mov => some 2
  | .add => some 2
  | .sub => some 2
  | .mul => some 2
  | .div => some 2
  | .hlt => some 0
  | .unknown => none

/-- The opcode of a line's first token (41_execution_engine.md R128). -/
def lineOpcode (line : Line) : Opcode :=
  match tokens line with
  | [] => .unknown
  | mnem :: _ => Opcode.ofToken mnem

/-! ## Operand tokens -/

/-- Removes one trailing comma from the first operand token, and only there (30_encoding.md R75). -/
def stripComma : List Token → List Token
  | [] => []
  | t :: ts => (if t.getLast? = some 0x2C then t.dropLast else t) :: ts

/-- The value of a decimal digit byte (30_encoding.md R81). -/
def digitValue (b : Byte) : Option Nat :=
  if 0x30 ≤ b.toNat ∧ b.toNat ≤ 0x39 then some (b.toNat - 0x30) else none

/-- The digits after those already read, in base 10; `none` when some byte is no digit. -/
def digitsFrom : Nat → List Byte → Option Nat
  | acc, [] => some acc
  | acc, b :: bs =>
    match digitValue b with
    | some d => digitsFrom (acc * 10 + d) bs
    | none => none

/-- `DIGIT+` read in base 10 (30_encoding.md R81). -/
def digits : List Byte → Option Nat
  | [] => none
  | b :: bs => digitsFrom 0 (b :: bs)

/-- The signed number of a sign and a magnitude (30_encoding.md R81). -/
def signedValue (negative : Bool) (n : Nat) : Int := if negative then -(n : Int) else (n : Int)

/-- `value(s)` when `s` is in `DEC`, else `none` (30_encoding.md R81). -/
def decValue : Token → Option Int
  | [] => none
  | b :: bs =>
    if b = 0x2B then (digits bs).map (signedValue false)
    else if b = 0x2D then (digits bs).map (signedValue true)
    else (digits (b :: bs)).map (signedValue false)

/-- The interior of a bracketed token: length at least 2, first byte `[`, last byte `]` (30_encoding.md R83). -/
def bracketInterior : Token → Option Token
  | [] => none
  | b :: bs => if b = 0x5B ∧ bs.getLast? = some 0x5D then some bs.dropLast else none

/-- The bytes of a register name (30_encoding.md R82). -/
def Reg.token : Reg → Token
  | .ax => [0x41, 0x58]
  | .bx => [0x42, 0x58]
  | .cx => [0x43, 0x58]
  | .dx => [0x44, 0x58]

/-- The register a token names exactly, if any (30_encoding.md R82; 10_state.md R23). -/
def Reg.ofToken (t : Token) : Option Reg :=
  if t = [0x41, 0x58] then some .ax
  else if t = [0x42, 0x58] then some .bx
  else if t = [0x43, 0x58] then some .cx
  else if t = [0x44, 0x58] then some .dx
  else none

/-- The two structural errors (00_scope.md R14; 60_exceptions.md R200). -/
inductive StructuralError where
  /-- `OperandParseError`: a malformed operand, a wrong operand count, or an immediate destination (60_exceptions.md R202). -/
  | operandParse
  /-- `AddressOutOfRange`: a bracketed address outside 0..65535 (60_exceptions.md R202). -/
  | addressOutOfRange
deriving DecidableEq, Repr

/-- `classify` (40_operand_resolver.md R101): bracketed, else a register name, else a literal, else malformed. -/
def classify (t : Token) : Except StructuralError Operand :=
  match bracketInterior t with
  | some s =>
    match decValue s with
    | none => .error .operandParse
    | some n => if n < 0 ∨ 65535 < n then .error .addressOutOfRange else .ok (.mem (BitVec.ofInt 16 n))
  | none =>
    match Reg.ofToken t with
    | some r => .ok (.reg r)
    | none =>
      match decValue t with
      | none => .error .operandParse
      | some n =>
        if n < -2147483648 ∨ 2147483647 < n then .error .operandParse else .ok (.imm (BitVec.ofInt 32 n))

/-! ## The decode function -/

/-- What decoding a line yields (30_encoding.md R88). -/
inductive DecodeResult where
  /-- `DI`: a decoded instruction. -/
  | instr (i : Instr)
  /-- `DF`: a structural error and the operand position it names, 1 to 3. -/
  | fault (code : StructuralError) (opnd : BitVec 2)
  /-- The line has no token: no line of the program store (30_encoding.md R73; log 5). -/
  | blank
deriving DecidableEq, Repr

/-- Format `F0` (30_encoding.md R74): no operand token; the first one there is surplus (R78). -/
def decodeF0 (i : Instr) : List Token → DecodeResult
  | [] => .instr i
  | _ :: _ => .fault .operandParse 1

/-- Format `F2` (30_encoding.md R74): the operand count (R78), then the first operand with its role (R79), then the second (R91). -/
def decodeF2 (mk : Operand → Operand → Instr) (firstIsDest : Bool) : List Token → DecodeResult
  | [] => .fault .operandParse 1
  | [_] => .fault .operandParse 2
  | [t1, t2] =>
    match classify t1 with
    | .error e => .fault e 1
    | .ok d1 =>
      if firstIsDest && !d1.isDestination then .fault .operandParse 1
      else
        match classify t2 with
        | .error e => .fault e 2
        | .ok d2 => .instr (mk d1 d2)
  | _ :: _ :: _ :: _ => .fault .operandParse 3

/-- What a mnemonic does with its operand tokens, the comma being stripped (30_encoding.md R76, R77, R79, R91). -/
def decodeOperands (ops : List Token) : Opcode → DecodeResult
  | .mov => decodeF2 .mov true ops
  | .add => decodeF2 .add false ops
  | .sub => decodeF2 .sub false ops
  | .mul => decodeF2 .mul false ops
  | .div => decodeF2 .div false ops
  | .hlt => decodeF0 .hlt ops
  | .unknown => .instr .unknown

/-- `decode(line)` (30_encoding.md R91): mnemonic, operand count, first operand, second operand, in that order. -/
def decode (line : Line) : DecodeResult :=
  match tokens line with
  | [] => .blank
  | mnem :: ops => decodeOperands (stripComma ops) (Opcode.ofToken mnem)

/-! ## The encoder: the canonical spelling of 30_encoding.md R74 -/

/-- The byte of a decimal digit (30_encoding.md R81). -/
def digitByte (d : Nat) : Byte := BitVec.ofNat 8 (0x30 + d)

/-- The decimal digits of a number below `10 ^ fuel`, without leading zeros. -/
def encodeNat : Nat → Nat → List Byte
  | 0, n => [digitByte (n % 10)]
  | fuel + 1, n => if n < 10 then [digitByte n] else encodeNat fuel (n / 10) ++ [digitByte (n % 10)]

/-- A signed decimal literal, with a sign byte only when negative (30_encoding.md R81, R84). -/
def encodeInt (n : Int) : Token :=
  if n < 0 then 0x2D :: encodeNat 10 n.natAbs else encodeNat 10 n.natAbs

/-- An operand's token (30_encoding.md R82, R83, R84). -/
def encodeOperand : Operand → Token
  | .reg r => r.token
  | .mem a => 0x5B :: (encodeNat 5 a.toNat ++ [0x5D])
  | .imm v => encodeInt v.toInt

/-- `MNEM OPND1, OPND2` with single spaces (30_encoding.md R74). -/
def encodeF2 (op : Opcode) (d1 d2 : Operand) : Line :=
  op.token ++ (0x20 :: (encodeOperand d1 ++ (0x2C :: 0x20 :: encodeOperand d2)))

/-- A line that decodes to the instruction, in the canonical spelling (30_encoding.md R74).
DESIGN CHOICE, safe (log 13): of all unknown mnemonics, `UNKNOWN` is written as the token `UNKNOWN`. -/
def encode : Instr → Line
  | .mov d1 d2 => encodeF2 .mov d1 d2
  | .add d1 d2 => encodeF2 .add d1 d2
  | .sub d1 d2 => encodeF2 .sub d1 d2
  | .mul d1 d2 => encodeF2 .mul d1 d2
  | .div d1 d2 => encodeF2 .div d1 d2
  | .hlt => Opcode.hlt.token
  | .unknown => Opcode.unknown.token

/-! ## Codes and the packed decoded word -/

/-- Opcode codes (30_encoding.md R76, R89); 7 is reserved. -/
def Opcode.code : Opcode → BitVec 3
  | .mov => 0
  | .add => 1
  | .sub => 2
  | .mul => 3
  | .div => 4
  | .hlt => 5
  | .unknown => 6

/-- The opcode of a code; none for the reserved 7 (30_encoding.md R85, R89). -/
def Opcode.ofCode (c : BitVec 3) : Option Opcode :=
  match c.toNat with
  | 0 => some .mov
  | 1 => some .add
  | 2 => some .sub
  | 3 => some .mul
  | 4 => some .div
  | 5 => some .hlt
  | 6 => some .unknown
  | _ => none

/-- Register index codes (30_encoding.md R89). -/
def Reg.index : Reg → BitVec 2
  | .ax => 0
  | .bx => 1
  | .cx => 2
  | .dx => 3

/-- The register of an index code (30_encoding.md R89). -/
def Reg.ofIndex (c : BitVec 2) : Reg :=
  match c.toNat with
  | 0 => .ax
  | 1 => .bx
  | 2 => .cx
  | _ => .dx

/-- Operand class codes (30_encoding.md R89); the class of an absent operand is 0 `NONE`. -/
def classCode : Option Operand → BitVec 2
  | none => 0
  | some (.reg _) => 1
  | some (.mem _) => 2
  | some (.imm _) => 3

/-- Operand payloads (30_encoding.md R90). -/
def payload : Option Operand → BitVec 32
  | none => 0
  | some (.reg r) => r.index.setWidth 32
  | some (.mem a) => a.setWidth 32
  | some (.imm v) => v

/-- The operands `d1`, `d2` of the decoded record, absent for `HLT` and `UNKNOWN` (30_encoding.md R88). -/
def Instr.operands : Instr → Option Operand × Option Operand
  | .mov d1 d2 => (some d1, some d2)
  | .add d1 d2 => (some d1, some d2)
  | .sub d1 d2 => (some d1, some d2)
  | .mul d1 d2 => (some d1, some d2)
  | .div d1 d2 => (some d1, some d2)
  | .hlt => (none, none)
  | .unknown => (none, none)

/-- The packed decoded word, 71 bits: `P2`, `C2`, `P1`, `C1`, `OP` from the most significant end (30_encoding.md R90). -/
def pack (i : Instr) : BitVec 71 :=
  (payload i.operands.2 ++ classCode i.operands.2 ++ payload i.operands.1 ++ classCode i.operands.1 ++ i.opcode.code :
    BitVec (32 + 2 + 32 + 2 + 3))

/-- The operand a class code and a payload stand for: `none` for a payload its class does not admit (log 15), `some none` for `NONE`. -/
def unpackOperand (c : BitVec 2) (p : BitVec 32) : Option (Option Operand) :=
  match c.toNat with
  | 0 => if p = 0 then some none else none
  | 1 => if p.toNat < 4 then some (some (.reg (Reg.ofIndex (p.setWidth 2)))) else none
  | 2 => if p.toNat < 65536 then some (some (.mem (p.setWidth 16))) else none
  | _ => some (some (.imm p))

/-- The instruction of an opcode and its operands; none where the opcode does not take them (30_encoding.md R78, R79). -/
def Instr.ofParts : Opcode → Option Operand → Option Operand → Option Instr
  | .mov, some d1, some d2 => if d1.isDestination then some (.mov d1 d2) else none
  | .add, some d1, some d2 => some (.add d1 d2)
  | .sub, some d1, some d2 => some (.sub d1 d2)
  | .mul, some d1, some d2 => some (.mul d1 d2)
  | .div, some d1, some d2 => some (.div d1 d2)
  | .hlt, none, none => some .hlt
  | .unknown, none, none => some .unknown
  | _, _, _ => none

/-- Reads a packed word back (30_encoding.md R90); none for a word no instruction packs to, opcode 7 among them (93_implementation_defined.md U10). -/
def unpack (w : BitVec 71) : Option Instr :=
  match Opcode.ofCode (w.extractLsb' 0 3), unpackOperand (w.extractLsb' 3 2) (w.extractLsb' 5 32),
      unpackOperand (w.extractLsb' 37 2) (w.extractLsb' 39 32) with
  | some op, some d1, some d2 => Instr.ofParts op d1 d2
  | _, _, _ => none

/-! ## The opcode table's words -/

/-- The low `n` bytes of a number, most significant first: how the opcode table numbers a mnemonic token's bits (its match_note). -/
def bigEndianBytes : Nat → Nat → List Byte
  | 0, _ => []
  | n + 1, w => BitVec.ofNat 8 (w / 256 ^ n) :: bigEndianBytes n w

/-- The line that an opcode-table word stands for: its token, and for a mnemonic that takes two operands the zero operands
`[0], 0`, since the table's bits hold the mnemonic token only. DESIGN CHOICE, safe (log 11): used by the host's two questions alone. -/
def tableLine (nbits w : Nat) : Line :=
  let token := bigEndianBytes ((max nbits 1 + 7) / 8) w
  match (Opcode.ofToken token).arity with
  | some 2 => token ++ [0x20, 0x5B, 0x30, 0x5D, 0x2C, 0x20, 0x30]
  | _ => token

/-- The instruction that `decode` reads from an opcode-table word; none where it reads none (log 11). -/
def decodeTableWord (nbits w : Nat) : Option Instr :=
  match decode (tableLine nbits w) with
  | .instr i => some i
  | .fault _ _ => none
  | .blank => none

end Sys2Proof
end

