-- ==== Sys2Proof/Machine/State.lean ====
section
/-! DEFINITION. The architectural state (10_state.md R20 to R37), the reasons a step can stop, and the state after reset. -/

namespace Sys2Proof.Machine

/-- The data memory as its words that differ from 0, with rising addresses; an unlisted address reads 0, the reset contents
(10_state.md R27; 20_memory.md R56). The cell is the whole word, the block's only access unit (20_memory.md R52, R53; log 8). -/
abbrev Memory := List (Nat × Word)

/-- The modified-address set: the addresses whose modified bit is 1, rising (10_state.md R28; log 9). -/
abbrev AddrSet := List Nat

/-- The last-event record (10_state.md R31, R32). -/
structure EventRegs where
  /-- `EV_VALID`. -/
  valid : Bool
  /-- `EV_CODE`. -/
  code : BitVec 3
  /-- `EV_PC`, a line index (log 3). -/
  pc : Nat
  /-- `EV_OP`. -/
  op : BitVec 3
  /-- `EV_OPND`. -/
  opnd : BitVec 2
deriving DecidableEq, Repr

/-- The whole state of the block (10_state.md R34). -/
structure State where
  /-- `x[AX]`, the accumulator (R20, R21). -/
  ax : Word
  /-- `x[BX]` (R20). -/
  bx : Word
  /-- `x[CX]` (R20). -/
  cx : Word
  /-- `x[DX]` (R20). -/
  dx : Word
  /-- `mem` (R27). -/
  mem : Memory
  /-- `modified` (R28). -/
  modified : AddrSet
  /-- The program store `prog[0..N-1]`; `N` is its length (R24). -/
  prog : List Line
  /-- The program counter, a line index (R25; log 3). -/
  pc : Nat
  /-- `hlt_flag` (R29). -/
  hltFlag : Bool
  /-- `fault_flag` (R29). -/
  faultFlag : Bool
  /-- The last-event record (R31). -/
  event : EventRegs
deriving DecidableEq, Repr

/-- Why a step stops. The events of 60_exceptions.md are no stops: each is a next state. -/
inductive Fault where
  /-- Raised by `step` when the fetched line has no token. Safe: 30_encoding.md R73 says that fetch never sees a blank line, and no
  store that LOAD wrote holds one (log 5). -/
  | blankLine
deriving DecidableEq, Repr

/-- Why an instruction has no meaning. -/
inductive Refusal where
  /-- Raised by nobody in this model: every instruction has its meaning. Safe: it would only stop the model. -/
  | notModelled (mnemonic : String)
deriving DecidableEq, Repr

/-- The canonical form of a memory: addresses strictly rising and below `MEM_SIZE`, and no listed word equal to 0. -/
abbrev Memory.wf (m : Memory) : Prop :=
  m.Pairwise (fun c d => c.1 < d.1) ∧ ∀ c ∈ m, c.1 < Config.memSize ∧ c.2 ≠ 0

/-- The canonical form of an address set: strictly rising and below `MEM_SIZE`. -/
abbrev AddrSet.wf (m : AddrSet) : Prop :=
  m.Pairwise (fun a b => a < b) ∧ ∀ a ∈ m, a < Config.memSize

/-- The last-event record after reset and after LOAD (10_state.md R31, R37). -/
def EventRegs.cleared : EventRegs := { valid := false, code := 0, pc := 0, op := 0, opnd := 0 }

/-- The state after power-on reset, for every value of the open parameters (10_state.md R37; 70_reset_and_hazards.md R230). -/
def State.resetWith (p : Config.Params) : State :=
  { ax := p.regInit .ax
    bx := p.regInit .bx
    cx := p.regInit .cx
    dx := p.regInit .dx
    mem := []
    modified := []
    prog := []
    pc := 0
    hltFlag := false
    faultFlag := false
    event := EventRegs.cleared }

/-- The state after reset in the reference configuration. DESIGN CHOICE, unsafe (log 1): the registers hold 0. -/
def State.reset : State := State.resetWith Config.reference

end Sys2Proof.Machine
end

