-- ==== Sys2Proof/Machine/Ops.lean ====
section
/-! DEFINITION. The named operations over registers, memory, the program store and the event record (00_scope.md R9, R10), and the one operation that takes a structural error (60_exceptions.md R204). -/

namespace Sys2Proof.Machine

/-! ## Arithmetic on mathematical integers -/

/-- `wrap_W(n)`: the word congruent to `n` modulo `2 ^ 32` (00_scope.md R9). -/
def wrapW (n : Int) : Word := BitVec.ofInt 32 n

/-- `trunc_div(a, b)`: the quotient rounded toward zero (00_scope.md R9; 43_arithmetic.md R166). -/
def truncDiv (a b : Int) : Int := Int.tdiv a b

/-! ## Registers -/

/-- `x[r]` (00_scope.md R10). -/
def State.readReg (r : Reg) (s : State) : Word :=
  match r with
  | .ax => s.ax
  | .bx => s.bx
  | .cx => s.cx
  | .dx => s.dx

/-- `x[r] <- v` (00_scope.md R10). No register is hardwired or read-only (10_state.md R22). -/
def State.writeReg (r : Reg) (v : Word) (s : State) : State :=
  match r with
  | .ax => { s with ax := v }
  | .bx => { s with bx := v }
  | .cx => { s with cx := v }
  | .dx => { s with dx := v }

/-! ## Data memory and modified bits -/

/-- What an address that no cell lists reads as: the reset contents (20_memory.md R56, R58). -/
def unlistedWord : Word := 0

/-- The word at an address. -/
def Memory.read (a : Nat) : Memory → Word
  | [] => unlistedWord
  | c :: m => if c.1 = a then c.2 else Memory.read a m

/-- A cell in front of a memory, unless its word is what an unlisted address reads as. -/
def Memory.consCell (a : Nat) (v : Word) (m : Memory) : Memory :=
  if v = unlistedWord then m else (a, v) :: m

/-- Stores a word and keeps the canonical form. -/
def Memory.write (a : Nat) (v : Word) : Memory → Memory
  | [] => Memory.consCell a v []
  | c :: m =>
    if c.1 < a then c :: Memory.write a v m
    else if c.1 = a then Memory.consCell a v m
    else Memory.consCell a v (c :: m)

/-- Adds an address and keeps the canonical form. -/
def AddrSet.insert (a : Nat) : AddrSet → AddrSet
  | [] => [a]
  | b :: m => if b < a then b :: AddrSet.insert a m else if b = a then b :: m else a :: b :: m

/-- `MemRead(a, 1)` (00_scope.md R10). It has no side effect (20_memory.md R55). -/
def State.memRead (a : Addr) (s : State) : Word := Memory.read a.toNat s.mem

/-- `modified[a]` (10_state.md R28). -/
def State.isModified (a : Addr) (s : State) : Bool := s.modified.contains a.toNat

/-- `MemWrite(a, 1, v)`: stores the word and sets its modified bit, whatever either held (40_operand_resolver.md R108). -/
def State.memWrite (a : Addr) (v : Word) (s : State) : State :=
  { s with mem := Memory.write a.toNat v s.mem, modified := AddrSet.insert a.toNat s.modified }

/-! ## Fetch -/

/-- The `pc <- pc + 1` of FETCH, made for every fetched line (41_execution_engine.md R123). -/
def State.advancePc (s : State) : State := { s with pc := s.pc + 1 }

/-! ## Events -/

/-- The events of a step (60_exceptions.md R200). -/
inductive Event where
  | ok | divisionByZero | unknownInstruction | operandParseError | addressOutOfRange
deriving DecidableEq, Repr

/-- Event codes (60_exceptions.md R200); 5 to 7 are reserved. -/
def Event.code : Event → BitVec 3
  | .ok => 0
  | .divisionByZero => 1
  | .unknownInstruction => 2
  | .operandParseError => 3
  | .addressOutOfRange => 4

/-- The event a structural error raises (60_exceptions.md R200). -/
def eventOfError : StructuralError → Event
  | .operandParse => .operandParseError
  | .addressOutOfRange => .addressOutOfRange

/-- `emit(code, i, op, k)`: writes the last-event record (41_execution_engine.md R128; 60_exceptions.md R201). -/
def State.emit (e : Event) (i : Nat) (op : Opcode) (k : BitVec 2) (s : State) : State :=
  { s with event := { valid := true, code := e.code, pc := i, op := op.code, opnd := k } }

/-- `hlt_flag <- 1` (44_control.md R180). -/
def State.setHlt (s : State) : State := { s with hltFlag := true }

/-- `fault_flag <- 1` (60_exceptions.md R204). -/
def State.setFault (s : State) : State := { s with faultFlag := true }

/-- A structural error at the line `pc` names: the fetch has advanced `pc`, `fault_flag` is set, the event is recorded, and
nothing else changes (60_exceptions.md R204; 40_operand_resolver.md R109). There is no handler and no return (R208, R209). -/
def State.takeStructuralError (op : Opcode) (e : StructuralError) (k : BitVec 2) (s : State) : State :=
  s.advancePc.setFault.emit (eventOfError e) s.pc op k

end Sys2Proof.Machine
end

