-- ==== Sys2Proof/Machine/Operands.lean ====
section
/-! DEFINITION. The source read multiplexer and the destination write demultiplexer (40_operand_resolver.md R100, R105, R106). -/

namespace Sys2Proof.Machine

/-- `resolveSource` (40_operand_resolver.md R105). -/
def resolveSource (d : Operand) (s : State) : Word :=
  match d with
  | .reg r => s.readReg r
  | .mem a => s.memRead a
  | .imm v => v

/-- `resolveDestination` (40_operand_resolver.md R106); none for an immediate, which is no storage location (R107). -/
def resolveDestination (d : Operand) (v : Word) (s : State) : Option State :=
  match d with
  | .reg r => some (s.writeReg r v)
  | .mem a => some (s.memWrite a v)
  | .imm _ => none

end Sys2Proof.Machine
end

