-- ==== Sys2Proof/Machine/Arithmetic.lean ====
section
/-! DEFINITION. The meanings of ADD, SUB, MUL and DIV (43_arithmetic.md). Each writes AX, whatever its operands name (R160), and works on the state before the step (log 6). -/

namespace Sys2Proof.Machine

/-- What the four share: the exact result is wrapped into `AX`, and the event is `OK` (43_arithmetic.md R160, R165). -/
def writeAccumulator (op : Opcode) (exact : Int) (s : State) : State :=
  (s.advancePc.writeReg .ax (wrapW exact)).emit .ok s.pc op 0

/-- `ADD a, b` (43_arithmetic.md R161). -/
def execAdd (d1 d2 : Operand) (s : State) : Host.Outcome State Fault Refusal :=
  .next (writeAccumulator .add ((resolveSource d1 s).toInt + (resolveSource d2 s).toInt) s)

/-- `SUB a, b` (43_arithmetic.md R162). -/
def execSub (d1 d2 : Operand) (s : State) : Host.Outcome State Fault Refusal :=
  .next (writeAccumulator .sub ((resolveSource d1 s).toInt - (resolveSource d2 s).toInt) s)

/-- `MUL a, b` (43_arithmetic.md R163). -/
def execMul (d1 d2 : Operand) (s : State) : Host.Outcome State Fault Refusal :=
  .next (writeAccumulator .mul ((resolveSource d1 s).toInt * (resolveSource d2 s).toInt) s)

/-- `DIV a, b` (43_arithmetic.md R164, R166): a zero divisor is the recoverable event `DivisionByZero`, naming operand 2. -/
def execDiv (d1 d2 : Operand) (s : State) : Host.Outcome State Fault Refusal :=
  if (resolveSource d2 s).toInt = 0 then .next (s.advancePc.emit .divisionByZero s.pc .div 2)
  else .next (writeAccumulator .div (truncDiv (resolveSource d1 s).toInt (resolveSource d2 s).toInt) s)

end Sys2Proof.Machine
end

