-- ==== Sys2Proof/Machine/Control.lean ====
section
/-! DEFINITION. The meanings of HLT and of an unknown mnemonic (44_control.md), as functions of the state before the step (log 6). -/

namespace Sys2Proof.Machine

/-- `HLT` (44_control.md R180). -/
def execHlt (s : State) : Host.Outcome State Fault Refusal :=
  .next (s.advancePc.setHlt.emit .ok s.pc .hlt 0)

/-- A line with an unknown mnemonic (44_control.md R181). -/
def execUnknown (s : State) : Host.Outcome State Fault Refusal :=
  .next (s.advancePc.emit .unknownInstruction s.pc .unknown 0)

end Sys2Proof.Machine
end

