-- ==== Sys2Proof/Machine/DataMovement.lean ====
section
/-! DEFINITION. The meaning of MOV (42_data_movement.md). A meaning is a function of the state before the step: it makes FETCH's advance of `pc`, and `s.pc` is the index `i` of the line it executes (log 6). -/

namespace Sys2Proof.Machine

/-- `MOV dest, src` (42_data_movement.md R150, R151): the source is read before the write (41_execution_engine.md R126).
The decoder admits no immediate destination; reached here, it is the structural error of 40_operand_resolver.md R107 (log 7). -/
def execMov (d1 d2 : Operand) (s : State) : Host.Outcome State Fault Refusal :=
  match resolveDestination d1 (resolveSource d2 s) s.advancePc with
  | some t => .next (t.emit .ok s.pc .mov 0)
  | none => .next (s.takeStructuralError .mov .operandParse 1)

end Sys2Proof.Machine
end

