-- ==== Sys2Proof/Machine/Dispatch.lean ====
section
/-! DEFINITION. Which meaning each instruction has (41_execution_engine.md R125). -/

namespace Sys2Proof.Machine

def exec (i : Instr) (s : State) : Host.Outcome State Fault Refusal :=
  match i with
  | .mov d1 d2 => Sys2Proof.Machine.execMov d1 d2 s
  | .add d1 d2 => Sys2Proof.Machine.execAdd d1 d2 s
  | .sub d1 d2 => Sys2Proof.Machine.execSub d1 d2 s
  | .mul d1 d2 => Sys2Proof.Machine.execMul d1 d2 s
  | .div d1 d2 => Sys2Proof.Machine.execDiv d1 d2 s
  | .hlt => Sys2Proof.Machine.execHlt s
  | .unknown => Sys2Proof.Machine.execUnknown s

end Sys2Proof.Machine
end

