-- ==== Sys2Proof/Machine/Flags.lean ====
section
/-! DEFINITION. The status derived from the two latches and `pc` (10_state.md R29, R30). The block has no condition flags: no instruction computes or reads one (R33). -/

namespace Sys2Proof.Machine

/-- The run states (41_execution_engine.md R120). -/
inductive RunState where
  | ready | halted
deriving DecidableEq, Repr

/-- `RUNSTATE` codes (10_state.md R32). -/
def RunState.code : RunState → BitVec 1
  | .ready => 0
  | .halted => 1

/-- Why the block is halted (10_state.md R30). -/
inductive HaltReason where
  | none | hlt | programEnd | fault
deriving DecidableEq, Repr

/-- `N`, the number of lines held (10_state.md R24; log 10). -/
def State.progLen (s : State) : Nat := s.prog.length

/-- `RUNSTATE`: Ready when no latch is set and `pc < N` (10_state.md R29; 41_execution_engine.md R120; for `pc > N` log 4). -/
def State.runState (s : State) : RunState :=
  if s.hltFlag = true ∨ s.faultFlag = true ∨ s.progLen ≤ s.pc then .halted else .ready

/-- `HALT_REASON` codes (10_state.md R30). -/
def HaltReason.code : HaltReason → BitVec 2
  | .none => 0
  | .hlt => 1
  | .programEnd => 2
  | .fault => 3

/-- `HALT_REASON`, with the priority FAULT, HLT, END (10_state.md R30). -/
def State.haltReason (s : State) : HaltReason :=
  match s.runState with
  | .ready => .none
  | .halted => if s.faultFlag = true then .fault else if s.hltFlag = true then .hlt else .programEnd

/-- The line FETCH reads: `prog[pc]` in Ready, none in Halted (41_execution_engine.md R121, R123, R127). -/
def State.fetchLine (s : State) : Option Line :=
  match s.runState with
  | .ready => s.prog[s.pc]?
  | .halted => none

end Sys2Proof.Machine
end

