-- ==== Sys2Proof/Machine/Engine.lean ====
section
/-! DEFINITION. One executed line (41_execution_engine.md R128), and where a table word is placed for the host's questions. -/

namespace Sys2Proof.Machine

/-- DECODE, then EXECUTE and COMMIT of the fetched line, or the structural error that decoding raised (41_execution_engine.md R124, R125, R128).
A line without a token is no line of the program store: the model stops (30_encoding.md R73; log 5). -/
def runLine (line : Line) (s : State) : Host.Outcome State Fault Refusal :=
  match decode line with
  | .instr i => exec i s
  | .fault e k => .next (s.takeStructuralError (lineOpcode line) e k)
  | .blank => .fault .blankLine

/-- The state with a line where the next step fetches, and Ready: the line stands at `prog[pc]`, every other line stays (a
store shorter than `pc` is filled up with the line), and the two latches are clear. It stands for the host's LOAD (log 12). -/
def State.placeLine (line : Line) (s : State) : State :=
  { s with
    prog := s.prog.take s.pc ++ List.replicate (s.pc - s.prog.length) line ++ line :: s.prog.drop (s.pc + 1)
    hltFlag := false
    faultFlag := false }

end Sys2Proof.Machine
end

