-- ==== Sys2Proof/Machine/Step.lean ====
section
/-! DEFINITION. The step (41_execution_engine.md R128) and the host's placing of an instruction. -/

namespace Sys2Proof.Machine

/-- One step: nothing in Halted (R127), else the line at `pc` is run (R123, R128). -/
def step (s : State) : Host.Outcome State Fault Refusal :=
  match s.fetchLine with
  | none => .next s
  | some line => runLine line s

/-- The state with an opcode-table word's line where `step` fetches next (log 11, log 12). -/
def State.withFetchWord (s : State) (nbits w : Nat) : State := s.placeLine (tableLine nbits w)

end Sys2Proof.Machine
end

