-- ==== Sys2Proof/Machine/HostPort.lean ====
section
/-! DEFINITION. The host transactions of 41_execution_engine.md R129 to R135: RESET, LOAD, STEP, RUN, the read-out ports, REPORT and the event port. Each is accepted between two steps (R126, R135), so each is a function of the state. -/

namespace Sys2Proof.Machine

/-! ## LOAD -/

/-- What LOAD answers (R129). -/
inductive LoadAnswer where
  | loadOk | loadRefused
deriving DecidableEq, Repr

/-- The lines LOAD keeps: blank ones are dropped (R129; 30_encoding.md R73). -/
def keptLines (lines : List Line) : List Line := lines.filter fun l => !isBlank l

/-- Whether LOAD refuses the program: more than `PROG_MAX` lines, or one longer than `LINE_MAX` bytes, after blank lines are dropped (R130). -/
def loadRefuses (p : Config.Params) (lines : List Line) : Bool :=
  decide (p.progMax < (keptLines lines).length) || (keptLines lines).any fun l => decide (p.lineMax < l.length)

/-- The state a LOAD that is accepted leaves: registers, memory and modified bits are kept (R129; 70_reset_and_hazards.md R231). -/
def State.loaded (lines : List Line) (s : State) : State :=
  { s with prog := keptLines lines, pc := 0, hltFlag := false, faultFlag := false, event := EventRegs.cleared }

/-- `LOAD(L)` (R129, R130): a refused LOAD changes nothing. -/
def State.load (p : Config.Params) (lines : List Line) (s : State) : LoadAnswer × State :=
  if loadRefuses p lines then (.loadRefused, s) else (.loadOk, s.loaded lines)

/-! ## The event port -/

/-- A record on the event port (60_exceptions.md R201). -/
structure EventRecord where
  code : BitVec 3
  pc : Nat
  op : BitVec 3
  opnd : BitVec 2
deriving DecidableEq, Repr

/-- The record the last-event registers hold (60_exceptions.md R201). -/
def State.lastRecord (s : State) : EventRecord :=
  { code := s.event.code, pc := s.event.pc, op := s.event.op, opnd := s.event.opnd }

/-- What a step puts on the event port: one record in Ready, none in Halted (R131; log 14). -/
def eventPort (s : State) : Option EventRecord :=
  match s.runState, step s with
  | .ready, .next t => some t.lastRecord
  | _, _ => none

/-- The severity levels of the logging channel (60_exceptions.md R217). -/
inductive Severity where
  | debug | info | warning | error
deriving DecidableEq, Repr

/-- The severity the block tags a record with; none for a code that is never produced (60_exceptions.md R217).
DESIGN CHOICE, safe (log 16): the OK record of HLT carries `info`. -/
def EventRecord.severity (r : EventRecord) : Option Severity :=
  match r.code.toNat with
  | 0 => if r.op = Opcode.hlt.code then some .info else some .debug
  | 1 => some .warning
  | 2 => some .warning
  | 3 => some .error
  | 4 => some .error
  | _ => none

/-! ## RUN -/

/-- At most `k` steps, while `RUNSTATE = Ready` (R134). -/
def runSteps : Nat → State → Host.Outcome State Fault Refusal
  | 0, s => .next s
  | k + 1, s =>
    match s.runState with
    | .halted => .next s
    | .ready =>
      match step s with
      | .next t => runSteps k t
      | .fault r => .fault r
      | .refused r => .refused r

/-- The records those steps put on the event port, in step order (R131, R139). -/
def runEvents : Nat → State → List EventRecord
  | 0, _ => []
  | k + 1, s =>
    match s.runState with
    | .halted => []
    | .ready =>
      match step s with
      | .next t => t.lastRecord :: runEvents k t
      | .fault _ => []
      | .refused _ => []

/-- The steps a run can take: each Ready step raises `pc` by 1 (R138; log 17). -/
def State.stepsLeft (s : State) : Nat := s.progLen - s.pc

/-- `RUN` (R134): steps until Halted. -/
def State.run (s : State) : Host.Outcome State Fault Refusal := runSteps s.stepsLeft s

/-! ## Read-out -/

/-- The fields of `READ_STATUS` (10_state.md R32). -/
structure Status where
  runState : BitVec 1
  haltReason : BitVec 2
  pc : Nat
  progLen : Nat
  evValid : Bool
  evCode : BitVec 3
  evPc : Nat
  evOp : BitVec 3
  evOpnd : BitVec 2
deriving DecidableEq, Repr

/-- `READ_STATUS` (R132; 10_state.md R32). -/
def State.readStatus (s : State) : Status :=
  { runState := s.runState.code
    haltReason := s.haltReason.code
    pc := s.pc
    progLen := s.progLen
    evValid := s.event.valid
    evCode := s.event.code
    evPc := s.event.pc
    evOp := s.event.op
    evOpnd := s.event.opnd }

/-- What `REPORT` returns (R133). -/
structure Report where
  registers : List (Reg × Word)
  memory : List (Nat × Word)
deriving DecidableEq, Repr

/-- `REPORT` (R133): the registers in index order, and each modified address with its word, in ascending order (the order the
modified set is held in). -/
def State.report (s : State) : Report :=
  { registers := [(.ax, s.ax), (.bx, s.bx), (.cx, s.cx), (.dx, s.dx)]
    memory := s.modified.map fun a => (a, Memory.read a s.mem) }

/-! ## One transaction -/

/-- The transactions of R135. -/
inductive Transaction where
  | reset
  | load (lines : List Line)
  | step
  | run
  | readReg (r : Reg)
  | readMem (a : Addr)
  | readMod (a : Addr)
  | readStatus
  | report
deriving DecidableEq, Repr

/-- What a transaction returns to the host (R135). -/
inductive Response where
  | nothing
  | load (answer : LoadAnswer)
  | word (v : Word)
  | bit (b : Bool)
  | status (st : Status)
  | report (r : Report)
deriving DecidableEq, Repr

/-- The state after a transaction, what it returns, and the records it put on the event port. -/
structure Answer where
  state : State
  response : Response
  events : List EventRecord
deriving DecidableEq, Repr

/-- An outcome's state as an answer; a stop stays the stop. -/
def answerOf (o : Host.Outcome State Fault Refusal) (events : List EventRecord) : Host.Outcome Answer Fault Refusal :=
  match o with
  | .next t => .next { state := t, response := .nothing, events := events }
  | .fault r => .fault r
  | .refused r => .refused r

/-- One host transaction (R135). -/
def transact (p : Config.Params) (tr : Transaction) (s : State) : Host.Outcome Answer Fault Refusal :=
  match tr with
  | .reset => .next { state := State.resetWith p, response := .nothing, events := [] }
  | .load lines => .next { state := (s.load p lines).2, response := .load (s.load p lines).1, events := [] }
  | .step => answerOf (step s) (eventPort s).toList
  | .run => answerOf s.run (runEvents s.stepsLeft s)
  | .readReg r => .next { state := s, response := .word (s.readReg r), events := [] }
  | .readMem a => .next { state := s, response := .word (s.memRead a), events := [] }
  | .readMod a => .next { state := s, response := .bit (s.isModified a), events := [] }
  | .readStatus => .next { state := s, response := .status s.readStatus, events := [] }
  | .report => .next { state := s, response := .report s.report, events := [] }

end Sys2Proof.Machine
end

