-- ==== Sys2Proof/Safety.lean ====
section
/-! DEFINITION. What a legal state of the block is (10_state.md R36 with R24, R26, R28, R30 to R32), in the terms the statements use. -/

namespace Sys2Proof.Machine

/-- The invariants of 10_state.md R36, together with what its other rules say of every state the block can be in. -/
structure State.Inv (p : Config.Params) (s : State) : Prop where
  /-- The memory is in canonical form, every address below 65536 (R27). -/
  mem_wf : s.mem.wf
  /-- The modified set is in canonical form, every address below 65536 (R28). -/
  modified_wf : s.modified.wf
  /-- A word that was never written holds 0 (R28; 20_memory.md R58). -/
  written : ∀ a : Addr, s.memRead a ≠ 0 → s.isModified a = true
  /-- `0 <= pc <= N` (R26). -/
  pc_le : s.pc ≤ s.progLen
  /-- `N <= PROG_MAX` (R24). -/
  prog_le : s.progLen ≤ p.progMax
  /-- Every stored line has a token and at most `LINE_MAX` bytes (R24). -/
  lines_ok : ∀ l ∈ s.prog, isBlank l = false ∧ l.length ≤ p.lineMax
  /-- At most one latch is set (R30, R36). -/
  latches : ¬(s.hltFlag = true ∧ s.faultFlag = true)
  /-- Until the first step after reset or LOAD, the event fields and `pc` are 0 and no latch is set (R31, R37). -/
  event_cleared : s.event.valid = false → s.event = EventRegs.cleared ∧ s.pc = 0 ∧ s.hltFlag = false ∧ s.faultFlag = false
  /-- After a step, the record names the line before `pc` (R31; 41_execution_engine.md R123). -/
  event_pc : s.event.valid = true → s.event.pc + 1 = s.pc
  /-- Only the event codes 0 to 4 are produced (R32; 60_exceptions.md R200). -/
  event_code : s.event.code.toNat ≤ 4
  /-- Only the opcode codes 0 to 6 are produced (R32). -/
  event_op : s.event.op.toNat ≤ 6
  /-- `fault_flag` is set exactly when the last event is a structural error (60_exceptions.md R204). -/
  fault_event : s.faultFlag = true ↔ 3 ≤ s.event.code.toNat
  /-- `hlt_flag` is set exactly when the last event is the OK of HLT (44_control.md R180). -/
  hlt_event : s.hltFlag = true ↔ s.event.code = Event.ok.code ∧ s.event.op = Opcode.hlt.code
  /-- A division by zero is an event of DIV and names operand 2 (60_exceptions.md R201, R202). -/
  div_event : s.event.code = Event.divisionByZero.code → s.event.op = Opcode.div.code ∧ s.event.opnd = 2
  /-- The event of an unknown mnemonic is UnknownInstruction, and no other line has that event (60_exceptions.md R202, R205). -/
  unknown_event : s.event.code = Event.unknownInstruction.code ↔ s.event.op = Opcode.unknown.code

/-! ## What a step leaves unchanged, and what it records -/

/-- Every register, memory word and modified bit reads as before. -/
def State.SameStorage (s t : State) : Prop :=
  (∀ r, t.readReg r = s.readReg r) ∧ (∀ a, t.memRead a = s.memRead a) ∧ ∀ a, t.isModified a = s.isModified a

/-- Every memory word and modified bit reads as before. -/
def State.SameMemory (s t : State) : Prop :=
  (∀ a, t.memRead a = s.memRead a) ∧ ∀ a, t.isModified a = s.isModified a

/-- The program store and both latches are as before. -/
def State.SameControl (s t : State) : Prop :=
  t.prog = s.prog ∧ t.hltFlag = s.hltFlag ∧ t.faultFlag = s.faultFlag

/-- The step from `s` executed the line at `s.pc` and recorded this event for it (41_execution_engine.md R123, R128). -/
def State.Recorded (s t : State) (e : Event) (op : Opcode) (k : BitVec 2) : Prop :=
  t.pc = s.pc + 1 ∧ t.event = { valid := true, code := e.code, pc := s.pc, op := op.code, opnd := k }

/-! ## The spec's arithmetic, said without the model's functions -/

/-- `w` is `wrap_W(n)`: in the range of `Word`, and congruent to `n` modulo `2 ^ 32` (00_scope.md R9). -/
def IsWrap (w : Word) (n : Int) : Prop :=
  -2147483648 ≤ w.toInt ∧ w.toInt ≤ 2147483647 ∧ (w.toInt - n) % 4294967296 = 0

/-- `q` is the quotient `a / b` rounded toward zero: the remainder is smaller than `b` and does not oppose the sign of `a`
(00_scope.md R9; 43_arithmetic.md R166). -/
def IsTruncatedQuotient (a b q : Int) : Prop :=
  ∃ r : Int, a = q * b + r ∧ r.natAbs < b.natAbs ∧ (0 ≤ a → 0 ≤ r) ∧ (a ≤ 0 → r ≤ 0)

/-! ## Encodings, said without the decoder's control flow -/

/-- How the lines whose mnemonic token is `mnem` decode in format F2: to `mk d1 d2` exactly when there are two operand tokens (one
trailing comma of the first stripped) that classify as `d1` and `d2`, the first being admitted there; else to the structural
error of the count, of the first operand or of the second (30_encoding.md R74, R75, R78, R79, R91). -/
def F2Encoding (mnem : Token) (op : Opcode) (mk : Operand → Operand → Instr) (admits : Operand → Prop) : Prop :=
  ∀ line ops, tokens line = mnem :: ops →
    lineOpcode line = op ∧
    (∀ d1 d2, decode line = .instr (mk d1 d2) ↔
      ∃ t1 t2, stripComma ops = [t1, t2] ∧ classify t1 = .ok d1 ∧ classify t2 = .ok d2 ∧ admits d1) ∧
    (ops.length ≠ 2 → ∃ k, decode line = .fault .operandParse k) ∧
    ∀ t1 t2, stripComma ops = [t1, t2] →
      (∀ e, classify t1 = .error e → decode line = .fault e 1) ∧
      (∀ d1, classify t1 = .ok d1 → ¬admits d1 → decode line = .fault .operandParse 1) ∧
      ∀ d1 e, classify t1 = .ok d1 → admits d1 → classify t2 = .error e → decode line = .fault e 2

end Sys2Proof.Machine
end

