-- ==== Sys2Proof/Certificates/Slice0/Obligations.lean ====
section
/-! DEFINITION. The statements for the provers. Each docstring names the rule of spec/ a statement formalises, or the sections it rests on. -/

open Sys2Proof Sys2Proof.Machine

/-! ## Encoding -/

/-- Every well-formed instruction, with every operand at every value, is read back from its canonical line (30_encoding.md R74, R82 to R84, R91). -/
def Obligations.DecodeOfEncodeIsTheInstruction : Prop :=
  ∀ i : Instr, i.wf = true → decode (encode i) = .instr i

/-- Every well-formed instruction is read back from its packed word (30_encoding.md R88 to R90). -/
def Obligations.UnpackOfPackIsTheInstruction : Prop :=
  ∀ i : Instr, i.wf = true → unpack (pack i) = some i

/-- A word that unpacks is the packed word of the well-formed instruction it unpacks to, so no bit of a packed word is dropped; opcode 7 unpacks to nothing (30_encoding.md R85, R89, R90; log 15). -/
def Obligations.UnpackedWordsArePackedWords : Prop :=
  (∀ w i, unpack w = some i → i.wf = true ∧ pack i = w) ∧ ∀ w : BitVec 71, w.extractLsb' 0 3 = 7 → unpack w = none

/-- The codes of R89 and the layout of the packed word of R90, for `W = 32`. -/
def Obligations.PackedWordLayout : Prop :=
  (Opcode.mov.code = 0 ∧ Opcode.add.code = 1 ∧ Opcode.sub.code = 2 ∧ Opcode.mul.code = 3 ∧ Opcode.div.code = 4 ∧
    Opcode.hlt.code = 5 ∧ Opcode.unknown.code = 6 ∧ ∀ op : Opcode, op.code ≠ 7) ∧
  (Reg.ax.index = 0 ∧ Reg.bx.index = 1 ∧ Reg.cx.index = 2 ∧ Reg.dx.index = 3) ∧
  (classCode none = 0 ∧ payload none = 0) ∧
  (∀ r : Reg, classCode (some (.reg r)) = 1 ∧ (payload (some (.reg r))).toNat = r.index.toNat) ∧
  (∀ a : Addr, classCode (some (.mem a)) = 2 ∧ (payload (some (.mem a))).toNat = a.toNat) ∧
  (∀ v : Word, classCode (some (.imm v)) = 3 ∧ ((payload (some (.imm v))).toNat : Int) = v.toInt % 4294967296 ∧
    (payload (some (.imm v))).toInt = v.toInt) ∧
  ∀ i : Instr,
    (pack i).extractLsb' 0 3 = i.opcode.code ∧
    (pack i).extractLsb' 3 2 = classCode i.operands.1 ∧ (pack i).extractLsb' 5 32 = payload i.operands.1 ∧
    (pack i).extractLsb' 37 2 = classCode i.operands.2 ∧ (pack i).extractLsb' 39 32 = payload i.operands.2

/-- What the decoder reads is well formed: the destination of a decoded MOV is never an immediate (30_encoding.md R79; 40_operand_resolver.md R107). -/
def Obligations.DecodedInstructionsAreWellFormed : Prop :=
  ∀ line i, decode line = .instr i → i.wf = true

/-- `tokens` cuts a line into its maximal runs of token bytes (30_encoding.md R71, R72): tokens are non-empty runs of token bytes, together they hold every token byte of the line in order, a whitespace byte separates, and a run of token bytes is one token. The first token is the mnemonic, compared bytewise. -/
def Obligations.TokensAreMaximalRuns : Prop :=
  (∀ b : Byte, isWhitespace b = true ↔ b.toNat ∈ [0x09, 0x0A, 0x0B, 0x0C, 0x0D, 0x20]) ∧
  (∀ line, ∀ t ∈ tokens line, t ≠ [] ∧ ∀ b ∈ t, isWhitespace b = false) ∧
  (∀ line, (tokens line).flatten = line.filter fun b => !isWhitespace b) ∧
  (∀ l1 l2 w, isWhitespace w = true → tokens (l1 ++ w :: l2) = tokens l1 ++ tokens l2) ∧
  (∀ t : Token, t ≠ [] → (∀ b ∈ t, isWhitespace b = false) → tokens t = [t]) ∧
  (∀ line mnem ops, tokens line = mnem :: ops → lineOpcode line = Opcode.ofToken mnem) ∧
  ∀ (t : Token) (op : Opcode), op ≠ .unknown → (Opcode.ofToken t = op ↔ t = op.token)

/-- The mnemonic token selects the opcode by exact bytewise equality; every other token is UNKNOWN (30_encoding.md R76). -/
def Obligations.MnemonicsMatchBytewise : Prop :=
  ∀ t : Token,
    (Opcode.ofToken t = .mov ↔ t = [0x4D, 0x4F, 0x56]) ∧ (Opcode.ofToken t = .add ↔ t = [0x41, 0x44, 0x44]) ∧
    (Opcode.ofToken t = .sub ↔ t = [0x53, 0x55, 0x42]) ∧ (Opcode.ofToken t = .mul ↔ t = [0x4D, 0x55, 0x4C]) ∧
    (Opcode.ofToken t = .div ↔ t = [0x44, 0x49, 0x56]) ∧ (Opcode.ofToken t = .hlt ↔ t = [0x48, 0x4C, 0x54])

/-- `DEC` is an optional sign and one or more decimal digits, and its value is the signed base-10 number (30_encoding.md R81). -/
def Obligations.DecimalLiteralsAreSignedDigits : Prop :=
  ∀ (t : Token) (n : Int), decValue t = some n ↔
    ∃ ds : List Nat, ds ≠ [] ∧ (∀ d ∈ ds, d < 10) ∧
      ((t = ds.map (fun d => BitVec.ofNat 8 (0x30 + d)) ∧ n = (Nat.ofDigits 10 ds.reverse : Nat)) ∨
       (t = 0x2B :: ds.map (fun d => BitVec.ofNat 8 (0x30 + d)) ∧ n = (Nat.ofDigits 10 ds.reverse : Nat)) ∨
       (t = 0x2D :: ds.map (fun d => BitVec.ofNat 8 (0x30 + d)) ∧ n = -((Nat.ofDigits 10 ds.reverse : Nat) : Int)))

/-- Exactly which tokens classify as each register, address and immediate, and which raise `AddressOutOfRange`; every other token
raises `OperandParseError`, the one outcome left (40_operand_resolver.md R101; 30_encoding.md R82, R83, R84). -/
def Obligations.ClassifierOutcomes : Prop :=
  (Reg.ax.token = [0x41, 0x58] ∧ Reg.bx.token = [0x42, 0x58] ∧ Reg.cx.token = [0x43, 0x58] ∧ Reg.dx.token = [0x44, 0x58]) ∧
  (∀ t r, classify t = .ok (.reg r) ↔ t = r.token) ∧
  (∀ t a, classify t = .ok (.mem a) ↔ ∃ s, t = 0x5B :: (s ++ [0x5D]) ∧ decValue s = some (a.toNat : Int)) ∧
  (∀ t v, classify t = .ok (.imm v) ↔ decValue t = some v.toInt) ∧
  (∀ t, classify t = .error .addressOutOfRange ↔
    ∃ s n, t = 0x5B :: (s ++ [0x5D]) ∧ decValue s = some n ∧ (n < 0 ∨ 65535 < n)) ∧
  ∀ t, classify t = .error .operandParse ↔
    (∀ d, classify t ≠ .ok d) ∧ classify t ≠ .error .addressOutOfRange

/-- Exactly one trailing comma of the first operand token is removed, and nothing else (30_encoding.md R75). -/
def Obligations.OneTrailingCommaIsStripped : Prop :=
  stripComma [] = [] ∧
  (∀ t ts, stripComma ((t ++ [0x2C]) :: ts) = t :: ts) ∧
  ∀ t ts, (∀ u, t ≠ u ++ [0x2C]) → stripComma (t :: ts) = t :: ts

/-- A known mnemonic with the wrong number of operand tokens raises `OperandParseError`, naming the first missing or the first
surplus operand (30_encoding.md R78). -/
def Obligations.OperandCountFaults : Prop :=
  ∀ line mnem ops, tokens line = mnem :: ops →
    (mnem ∈ [[0x4D, 0x4F, 0x56], [0x41, 0x44, 0x44], [0x53, 0x55, 0x42], [0x4D, 0x55, 0x4C], [0x44, 0x49, 0x56]] →
      (ops.length < 2 → decode line = .fault .operandParse (BitVec.ofNat 2 (ops.length + 1))) ∧
      (2 < ops.length → decode line = .fault .operandParse 3)) ∧
    (mnem = [0x48, 0x4C, 0x54] → 0 < ops.length → decode line = .fault .operandParse 1)

/-- The order of the checks (60_exceptions.md R205): an unknown mnemonic first, then the operand count, then the first operand with its role, then the second, and a division by zero only where decoding found no fault. The step records the fault that decoding found. -/
def Obligations.FirstFaultIsTheOneReported : Prop :=
  (∀ line mnem ops, tokens line = mnem :: ops → Opcode.ofToken mnem = .unknown → decode line = .instr .unknown) ∧
  (∀ line mnem ops n, tokens line = mnem :: ops → (Opcode.ofToken mnem).arity = some n → ops.length ≠ n →
    ∃ k, decode line = .fault .operandParse k) ∧
  (∀ line mnem ops t1 t2 e, tokens line = mnem :: ops → (Opcode.ofToken mnem).arity = some 2 → stripComma ops = [t1, t2] →
    classify t1 = .error e → decode line = .fault e 1) ∧
  (∀ line mnem ops t1 t2 v, tokens line = mnem :: ops → Opcode.ofToken mnem = .mov → stripComma ops = [t1, t2] →
    classify t1 = .ok (.imm v) → decode line = .fault .operandParse 1) ∧
  (∀ line mnem ops t1 t2 d1 e, tokens line = mnem :: ops → (Opcode.ofToken mnem).arity = some 2 → stripComma ops = [t1, t2] →
    classify t1 = .ok d1 → (Opcode.ofToken mnem = .mov → ∀ v, d1 ≠ .imm v) → classify t2 = .error e →
    decode line = .fault e 2) ∧
  (∀ s line e k, s.fetchLine = some line → decode line = .fault e k →
    ∃ t, step s = .next t ∧ t.event.code = (eventOfError e).code ∧ t.event.opnd = k) ∧
  ∀ s t line, s.fetchLine = some line → step s = .next t → t.event.code = Event.divisionByZero.code →
    ∃ d1 d2, decode line = .instr (.div d1 d2)

/-- A few lines of the spec's own vectors, byte for byte (95_test_vectors.md section 2.1): `MOV [10], 42`, `SUB [0], -1`, `HLT`, `mov AX, 1`, `MOV AX,5`, `MOV AX, [-1]`. -/
def Obligations.DecodesSpecVectors : Prop :=
  decode [0x4D, 0x4F, 0x56, 0x20, 0x5B, 0x31, 0x30, 0x5D, 0x2C, 0x20, 0x34, 0x32] = .instr (.mov (.mem 10) (.imm 42)) ∧
  decode [0x53, 0x55, 0x42, 0x20, 0x5B, 0x30, 0x5D, 0x2C, 0x20, 0x2D, 0x31] = .instr (.sub (.mem 0) (.imm (-1))) ∧
  decode [0x48, 0x4C, 0x54] = .instr .hlt ∧
  decode [0x6D, 0x6F, 0x76, 0x20, 0x41, 0x58, 0x2C, 0x20, 0x31] = .instr .unknown ∧
  decode [0x4D, 0x4F, 0x56, 0x20, 0x41, 0x58, 0x2C, 0x35] = .fault .operandParse 2 ∧
  decode [0x4D, 0x4F, 0x56, 0x20, 0x41, 0x58, 0x2C, 0x20, 0x5B, 0x2D, 0x31, 0x5D] = .fault .addressOutOfRange 2

/-! ## Operands -/

/-- `resolveSource` reads the register, the memory word or the literal (40_operand_resolver.md R105). -/
def Obligations.ResolveSourceReads : Prop :=
  ∀ s : State, (∀ r, resolveSource (.reg r) s = s.readReg r) ∧ (∀ a, resolveSource (.mem a) s = s.memRead a) ∧
    ∀ v, resolveSource (.imm v) s = v

/-- A destination write stores its value in one place, where a source read finds it; a memory write sets that word's modified bit,
and nothing else changes (40_operand_resolver.md R106, R108; that the value is read back is R110, which the spec derives from R105,
R106 and R108). That `resolveDestination` answers none for an immediate is the model's choice (log 7): the source does not say
what it does there, and R107 makes such a destination a fault at decode. -/
def Obligations.DestinationRoundTrip : Prop :=
  ∀ (s : State) (v : Word), s.mem.wf →
    (∀ r, ∃ t, resolveDestination (.reg r) v s = some t ∧ resolveSource (.reg r) t = v ∧
      (∀ q, q ≠ r → t.readReg q = s.readReg q) ∧ s.SameMemory t ∧ s.SameControl t ∧ t.pc = s.pc ∧ t.event = s.event) ∧
    (∀ a, ∃ t, resolveDestination (.mem a) v s = some t ∧ resolveSource (.mem a) t = v ∧ t.isModified a = true ∧
      (∀ r, t.readReg r = s.readReg r) ∧ (∀ b, b ≠ a → t.memRead b = s.memRead b ∧ t.isModified b = s.isModified b) ∧
      s.SameControl t ∧ t.pc = s.pc ∧ t.event = s.event) ∧
    ∀ w, resolveDestination (.imm w) v s = none

/-! ## Instructions -/

/-- MOV (42_data_movement.md R150): its encoding, and for a register or a memory destination and every source, what it
writes, what it leaves unchanged and what it records. -/
def Obligations.MovCopiesSourceToDestination : Prop :=
  F2Encoding [0x4D, 0x4F, 0x56] .mov .mov (fun d => ∀ v, d ≠ .imm v) ∧ Opcode.mov.code = 0 ∧
  (∀ (r : Reg) (src : Operand) (s : State), ∃ t, exec (.mov (.reg r) src) s = .next t ∧
    t.readReg r = resolveSource src s ∧ (∀ q, q ≠ r → t.readReg q = s.readReg q) ∧ s.SameMemory t ∧ s.SameControl t ∧
    s.Recorded t .ok .mov 0) ∧
  ∀ (a : Addr) (src : Operand) (s : State), s.mem.wf → ∃ t, exec (.mov (.mem a) src) s = .next t ∧
    t.memRead a = resolveSource src s ∧ t.isModified a = true ∧
    (∀ b, b ≠ a → t.memRead b = s.memRead b ∧ t.isModified b = s.isModified b) ∧ (∀ r, t.readReg r = s.readReg r) ∧
    s.SameControl t ∧ s.Recorded t .ok .mov 0

/-- ADD (43_arithmetic.md R161): its encoding; AX gets the wrapped sum; nothing else but `pc` and the event record changes. -/
def Obligations.AddWritesWrappedSumToAx : Prop :=
  F2Encoding [0x41, 0x44, 0x44] .add .add (fun _ => True) ∧ Opcode.add.code = 1 ∧
  ∀ (d1 d2 : Operand) (s : State), ∃ t, exec (.add d1 d2) s = .next t ∧
    IsWrap (t.readReg .ax) ((resolveSource d1 s).toInt + (resolveSource d2 s).toInt) ∧
    (∀ q, q ≠ .ax → t.readReg q = s.readReg q) ∧ s.SameMemory t ∧ s.SameControl t ∧ s.Recorded t .ok .add 0

/-- SUB (43_arithmetic.md R162): its encoding; AX gets the wrapped difference, first operand minus second; nothing else but `pc`
and the event record changes. -/
def Obligations.SubWritesWrappedDifferenceToAx : Prop :=
  F2Encoding [0x53, 0x55, 0x42] .sub .sub (fun _ => True) ∧ Opcode.sub.code = 2 ∧
  ∀ (d1 d2 : Operand) (s : State), ∃ t, exec (.sub d1 d2) s = .next t ∧
    IsWrap (t.readReg .ax) ((resolveSource d1 s).toInt - (resolveSource d2 s).toInt) ∧
    (∀ q, q ≠ .ax → t.readReg q = s.readReg q) ∧ s.SameMemory t ∧ s.SameControl t ∧ s.Recorded t .ok .sub 0

/-- MUL (43_arithmetic.md R163): its encoding; AX gets the wrapped product; nothing else but `pc` and the event record changes. -/
def Obligations.MulWritesWrappedProductToAx : Prop :=
  F2Encoding [0x4D, 0x55, 0x4C] .mul .mul (fun _ => True) ∧ Opcode.mul.code = 3 ∧
  ∀ (d1 d2 : Operand) (s : State), ∃ t, exec (.mul d1 d2) s = .next t ∧
    IsWrap (t.readReg .ax) ((resolveSource d1 s).toInt * (resolveSource d2 s).toInt) ∧
    (∀ q, q ≠ .ax → t.readReg q = s.readReg q) ∧ s.SameMemory t ∧ s.SameControl t ∧ s.Recorded t .ok .mul 0

/-- DIV (43_arithmetic.md R164): its encoding; with a divisor other than 0, AX gets the wrapped truncated quotient; with the divisor 0,
`DivisionByZero` is recorded, naming operand 2, and everything but `pc` and the event record is unchanged. -/
def Obligations.DivWritesTruncatedQuotientOrReportsZero : Prop :=
  F2Encoding [0x44, 0x49, 0x56] .div .div (fun _ => True) ∧ Opcode.div.code = 4 ∧
  (∀ (d1 d2 : Operand) (s : State), resolveSource d2 s ≠ 0 → ∃ t q, exec (.div d1 d2) s = .next t ∧
    IsTruncatedQuotient (resolveSource d1 s).toInt (resolveSource d2 s).toInt q ∧ IsWrap (t.readReg .ax) q ∧
    (∀ r, r ≠ .ax → t.readReg r = s.readReg r) ∧ s.SameMemory t ∧ s.SameControl t ∧ s.Recorded t .ok .div 0) ∧
  ∀ (d1 d2 : Operand) (s : State), resolveSource d2 s = 0 → ∃ t, exec (.div d1 d2) s = .next t ∧
    s.SameStorage t ∧ s.SameControl t ∧ s.Recorded t .divisionByZero .div 2

/-- The division law (43_arithmetic.md R166): AX is the quotient rounded toward zero itself, but for `MIN / -1`, the one that
overflows, which wraps to `MIN`; a zero divisor leaves AX unchanged and is reported, and execution goes on; nothing but AX, `pc` and
the event record changes. -/
def Obligations.DivisionOverflowsOnlyForMinByMinusOne : Prop :=
  ∀ (d1 d2 : Operand) (s : State), ∃ t, exec (.div d1 d2) s = .next t ∧
    t.pc = s.pc + 1 ∧ (∀ r, r ≠ .ax → t.readReg r = s.readReg r) ∧ s.SameMemory t ∧ s.SameControl t ∧
    (resolveSource d2 s = 0 → t.readReg .ax = s.readReg .ax ∧ t.event.code = Event.divisionByZero.code) ∧
    (resolveSource d2 s ≠ 0 → ¬((resolveSource d1 s).toInt = -2147483648 ∧ (resolveSource d2 s).toInt = -1) →
      IsTruncatedQuotient (resolveSource d1 s).toInt (resolveSource d2 s).toInt (t.readReg .ax).toInt) ∧
    ((resolveSource d1 s).toInt = -2147483648 → (resolveSource d2 s).toInt = -1 → (t.readReg .ax).toInt = -2147483648)

/-- HLT (44_control.md R180): its encoding; it sets `hlt_flag`, so the block is Halted, and with `fault_flag` clear the reason is HLT;
nothing else but `pc` and the event record changes. -/
def Obligations.HltSetsTheHaltLatch : Prop :=
  (∀ line ops, tokens line = [0x48, 0x4C, 0x54] :: ops → lineOpcode line = .hlt ∧
    (ops = [] → decode line = .instr .hlt) ∧ (ops ≠ [] → decode line = .fault .operandParse 1)) ∧
  Opcode.hlt.code = 5 ∧
  ∀ s : State, ∃ t, exec .hlt s = .next t ∧ t.hltFlag = true ∧ t.runState = .halted ∧
    (s.faultFlag = false → t.haltReason = .hlt) ∧ s.SameStorage t ∧ t.prog = s.prog ∧ t.faultFlag = s.faultFlag ∧
    s.Recorded t .ok .hlt 0

/-- An unknown mnemonic (44_control.md R181; 30_encoding.md R77): every line whose first token is none of the six decodes as UNKNOWN
whatever its operands; it records `UnknownInstruction` and changes nothing else but `pc`. -/
def Obligations.UnknownMnemonicIsReportedOnly : Prop :=
  (∀ line mnem ops, tokens line = mnem :: ops →
    mnem ∉ [[0x4D, 0x4F, 0x56], [0x41, 0x44, 0x44], [0x53, 0x55, 0x42], [0x4D, 0x55, 0x4C], [0x44, 0x49, 0x56], [0x48, 0x4C, 0x54]] →
    lineOpcode line = .unknown ∧ decode line = .instr .unknown) ∧
  Opcode.unknown.code = 6 ∧
  ∀ s : State, ∃ t, exec .unknown s = .next t ∧ s.SameStorage t ∧ s.SameControl t ∧
    s.Recorded t .unknownInstruction .unknown 0

/-- The model's choice (log 7): exec of a MOV with an immediate destination, a form no line decodes to, takes the structural error
that 40_operand_resolver.md R107 gives it. -/
def Obligations.MovToImmediateTakesStructuralError : Prop :=
  ∀ (v : Word) (src : Operand) (s : State), ∃ t, exec (.mov (.imm v) src) s = .next t ∧ s.SameStorage t ∧
    t.prog = s.prog ∧ t.hltFlag = s.hltFlag ∧ t.faultFlag = true ∧ s.Recorded t .operandParseError .mov 1

/-! ## The step -/

/-- When the line at `pc` decodes to an instruction, the step is exec of it at that state; exec itself moves `pc` past the line
(41_execution_engine.md section 2, R123 to R128; log 6). -/
def Obligations.StepRunsTheDecodedInstruction : Prop :=
  ∀ (s : State) (line : Line) (i : Instr), s.fetchLine = some line → decode line = .instr i →
    step s = exec i s ∧ ∃ t, exec i s = .next t ∧ t.pc = s.pc + 1

/-- In Ready the line fetched is `prog[pc]`, which exists; in Halted no line is fetched (41_execution_engine.md R121, R123). -/
def Obligations.FetchReadsTheLineAtPc : Prop :=
  ∀ s : State, (s.runState = .ready → s.pc < s.progLen ∧ ∃ line, s.prog[s.pc]? = some line ∧ s.fetchLine = some line) ∧
    (s.runState = .halted → s.fetchLine = none)

/-- A step in Halted changes nothing and emits no event record (41_execution_engine.md R127). -/
def Obligations.HaltedStepChangesNothing : Prop :=
  ∀ s : State, s.runState = .halted → step s = .next s ∧ eventPort s = none

/-- A structural error sets `fault_flag`, records its event and changes nothing else but `pc`; the block is then Halted with
HALT_REASON FAULT, and every transaction but LOAD and RESET completes and leaves that state (60_exceptions.md R204;
40_operand_resolver.md R109). -/
def Obligations.StructuralErrorHaltsWithoutAWrite : Prop :=
  ∀ (s : State) (line : Line) (e : StructuralError) (k : BitVec 2), s.fetchLine = some line → decode line = .fault e k →
    ∃ t, step s = .next t ∧ s.SameStorage t ∧ t.prog = s.prog ∧ t.hltFlag = s.hltFlag ∧ t.faultFlag = true ∧
      (e = .operandParse → s.Recorded t .operandParseError (lineOpcode line) k) ∧
      (e = .addressOutOfRange → s.Recorded t .addressOutOfRange (lineOpcode line) k) ∧
      t.runState = .halted ∧ t.haltReason = .fault ∧
      ∀ (p : Config.Params) (tr : Transaction), tr ≠ .reset → (∀ lines, tr ≠ .load lines) →
        ∃ ans, transact p tr t = .next ans ∧ ans.state = t

/-- In Ready the line fetched is `prog[pc]`; it advances `pc` by 1, whatever it turns out to be, and its index is recorded as `EV_PC` (41_execution_engine.md R123). -/
def Obligations.PcAdvancesOnEveryFetch : Prop :=
  ∀ s t : State, s.runState = .ready → step s = .next t →
    (∃ line, s.prog[s.pc]? = some line ∧ s.fetchLine = some line) ∧
    t.pc = s.pc + 1 ∧ t.event.pc = s.pc ∧ t.event.valid = true

/-- In a legal state, a step in Ready puts exactly one record on the event port, with the four fields of the last-event registers it
leaves, for the line at `pc`, with a code that is not reserved; a step in Halted puts none. The STEP transaction leaves the state of
that step and puts that record on the port (41_execution_engine.md R131, R135; 60_exceptions.md R200, R201). -/
def Obligations.OneEventRecordPerReadyStep : Prop :=
  ∀ (p : Config.Params) (s : State), s.Inv p →
    (s.runState = .ready → ∃ t rec, step s = .next t ∧ eventPort s = some rec ∧
      rec.code = t.event.code ∧ rec.pc = t.event.pc ∧ rec.op = t.event.op ∧ rec.opnd = t.event.opnd ∧
      t.event.valid = true ∧ rec.pc = s.pc ∧ rec.code.toNat ≤ 4 ∧
      transact p .step s = .next { state := t, response := .nothing, events := [rec] }) ∧
    (s.runState = .halted → eventPort s = none ∧
      transact p .step s = .next { state := s, response := .nothing, events := [] })

/-- What each event leaves (60_exceptions.md R203): after a recoverable event nothing but `pc` and the record has changed and the
next line, if any, is fetched next; after a structural error no register, word or modified bit has changed and the block is Halted
with reason FAULT; after OK the block goes on, but for HLT and the last line. -/
def Obligations.EventDispositions : Prop :=
  ∀ s t : State, s.runState = .ready → step s = .next t →
    (t.event.code = Event.ok.code →
      (t.runState = .halted ↔ t.event.op = Opcode.hlt.code ∨ s.pc + 1 = s.progLen) ∧ t.haltReason ≠ .fault) ∧
    (t.event.code = Event.divisionByZero.code ∨ t.event.code = Event.unknownInstruction.code →
      s.SameStorage t ∧ s.SameControl t ∧ t.pc = s.pc + 1 ∧ (s.pc + 1 < s.progLen → t.fetchLine = s.prog[s.pc + 1]?)) ∧
    (t.event.code = Event.operandParseError.code ∨ t.event.code = Event.addressOutOfRange.code →
      s.SameStorage t ∧ t.prog = s.prog ∧ t.pc = s.pc + 1 ∧ t.runState = .halted ∧ t.haltReason = .fault)

/-- The event codes, and which line raises which event (60_exceptions.md section 1): the record names the opcode of the line; `DivisionByZero` only a DIV
whose divisor reads 0; `UnknownInstruction` exactly the unknown mnemonics; a structural error exactly the lines that do not
decode, `AddressOutOfRange` never HLT. -/
def Obligations.EventsAreRaisedByTheirLines : Prop :=
  (Event.ok.code = 0 ∧ Event.divisionByZero.code = 1 ∧ Event.unknownInstruction.code = 2 ∧ Event.operandParseError.code = 3 ∧
    Event.addressOutOfRange.code = 4) ∧
  ∀ (s t : State) (line : Line), s.fetchLine = some line → step s = .next t →
    t.event.op = (lineOpcode line).code ∧
    (t.event.code = Event.divisionByZero.code ↔ ∃ d1 d2, decode line = .instr (.div d1 d2) ∧ resolveSource d2 s = 0) ∧
    (t.event.code = Event.unknownInstruction.code ↔ lineOpcode line = .unknown) ∧
    (t.event.code = Event.operandParseError.code ↔ ∃ k, decode line = .fault .operandParse k) ∧
    (t.event.code = Event.addressOutOfRange.code ↔ ∃ k, decode line = .fault .addressOutOfRange k) ∧
    (t.event.code = Event.addressOutOfRange.code → lineOpcode line ≠ .hlt)

/-- `hlt_flag` is set only by HLT and `fault_flag` only by a structural error, and no step clears either (10_state.md section 4). -/
def Obligations.LatchesAreSetOnlyByHltAndErrors : Prop :=
  ∀ s t : State, step s = .next t →
    (t.hltFlag = true ↔ s.hltFlag = true ∨ ∃ line, s.fetchLine = some line ∧ decode line = .instr .hlt) ∧
    (t.faultFlag = true ↔ s.faultFlag = true ∨ ∃ line e k, s.fetchLine = some line ∧ decode line = .fault e k)

/-- No step writes the program store (20_memory.md R62), and a step moves `pc` by 0 or 1 only (44_control.md R183). -/
def Obligations.StepsNeverWriteTheProgram : Prop :=
  ∀ s t : State, step s = .next t → t.prog = s.prog ∧ (t.pc = s.pc ∨ t.pc = s.pc + 1) ∧ (t.pc = s.pc → t = s)

/-- Only a MOV to a register writes it, but for AX, which the four arithmetic instructions write too, DIV only with a divisor other
than 0 (10_state.md section 1; 43_arithmetic.md section 1). -/
def Obligations.RegistersHaveTheirWriters : Prop :=
  ∀ (s t : State) (r : Reg), step s = .next t → t.readReg r ≠ s.readReg r →
    ∃ line, s.fetchLine = some line ∧
      ((∃ d, decode line = .instr (.mov (.reg r) d)) ∨
       (r = .ax ∧ ∃ d1 d2, decode line = .instr (.add d1 d2) ∨ decode line = .instr (.sub d1 d2) ∨
         decode line = .instr (.mul d1 d2) ∨ (decode line = .instr (.div d1 d2) ∧ resolveSource d2 s ≠ 0)))

/-- Only a MOV to a memory word writes it or its modified bit, and no step clears a modified bit (10_state.md section 3; 40_operand_resolver.md R108). -/
def Obligations.MemoryHasOneWriter : Prop :=
  ∀ (s t : State) (a : Addr), step s = .next t →
    (t.memRead a ≠ s.memRead a ∨ t.isModified a ≠ s.isModified a →
      ∃ line d, s.fetchLine = some line ∧ decode line = .instr (.mov (.mem a) d)) ∧
    (s.isModified a = true → t.isModified a = true)

/-- The modified bits and the event record steer nothing (10_state.md section 3; 41_execution_engine.md section 3): two states that differ
only in them step alike, but for the modified bits, and for the record where no step is taken. -/
def Obligations.ModifiedBitsAndEventsSteerNothing : Prop :=
  ∀ (s t : State) (m : AddrSet) (e : EventRegs), step s = .next t →
    ∃ u, step { s with modified := m, event := e } = .next u ∧ (∀ r, u.readReg r = t.readReg r) ∧ u.mem = t.mem ∧
      u.prog = t.prog ∧ u.pc = t.pc ∧ u.hltFlag = t.hltFlag ∧ u.faultFlag = t.faultFlag ∧
      (s.runState = .ready → u.event = t.event)

/-- The transitions of the run state (41_execution_engine.md R121, which the spec derives from R120, R123 and R29): from Ready a step leads to Halted exactly for an HLT, a structural
error or the last line; from Halted a step changes nothing; LOAD leads to Ready exactly when it keeps a line; reset leads to Halted. -/
def Obligations.RunStateTransitions : Prop :=
  (∀ (s t : State) (line : Line), s.fetchLine = some line → step s = .next t →
    (t.runState = .halted ↔
      decode line = .instr .hlt ∨ (∃ e k, decode line = .fault e k) ∨ s.pc + 1 = s.progLen)) ∧
  (∀ s : State, s.runState = .halted → step s = .next s) ∧
  (∀ (s : State) (lines : List Line), (s.loaded lines).runState = .ready ↔ ∃ l ∈ lines, tokens l ≠ []) ∧
  (∀ p : Config.Params, (State.resetWith p).runState = .halted) ∧
  ∀ s : State, s.fetchLine ≠ none → s.runState = .ready ∧ s.pc < s.progLen

/-- RUNSTATE reads 0 in Ready and 1 in Halted (10_state.md R32). In a legal state, RUNSTATE and HALT_REASON are the tables of 10_state.md section 4, and the latches are never both set, as R30 derives. -/
def Obligations.RunStateAndHaltReasonTables : Prop :=
  RunState.ready.code = 0 ∧ RunState.halted.code = 1 ∧
  ∀ (p : Config.Params) (s : State), s.Inv p →
    (s.runState = .halted ↔ s.hltFlag = true ∨ s.faultFlag = true ∨ s.pc = s.progLen) ∧
    (s.haltReason.code = 0 ↔ s.runState = .ready) ∧
    (s.haltReason.code = 3 ↔ s.faultFlag = true) ∧
    (s.haltReason.code = 1 ↔ s.faultFlag = false ∧ s.hltFlag = true) ∧
    (s.haltReason.code = 2 ↔ s.faultFlag = false ∧ s.hltFlag = false ∧ s.pc = s.progLen) ∧
    ¬(s.hltFlag = true ∧ s.faultFlag = true)

/-! ## Invariants -/

/-- The state after power-on reset is legal, for every value of the open parameters. -/
def Obligations.ResetMeetsTheInvariant : Prop :=
  ∀ p : Config.Params, (State.resetWith p).Inv p

/-- The RESET transaction, in every state, leaves the state after power-on reset, returns nothing and emits no record; and what that
state holds, for every value of the open parameters (70_reset_and_hazards.md R230). -/
def Obligations.ResetValues : Prop :=
  ∀ p : Config.Params,
    (∀ s : State, transact p .reset s = .next { state := State.resetWith p, response := .nothing, events := [] }) ∧
    (∀ r, (State.resetWith p).readReg r = p.regInit r) ∧ (∀ a, (State.resetWith p).memRead a = 0) ∧
    (∀ a, (State.resetWith p).isModified a = false) ∧ (State.resetWith p).prog = [] ∧ (State.resetWith p).progLen = 0 ∧
    (State.resetWith p).pc = 0 ∧ (State.resetWith p).hltFlag = false ∧ (State.resetWith p).faultFlag = false ∧
    (State.resetWith p).event = { valid := false, code := 0, pc := 0, op := 0, opnd := 0 } ∧
    (State.resetWith p).runState = .halted ∧ (State.resetWith p).haltReason = .programEnd

/-- Every step keeps the invariant, from every legal state. -/
def Obligations.StepKeepsTheInvariant : Prop :=
  ∀ (p : Config.Params) (s t : State), s.Inv p → step s = .next t → t.Inv p

/-- Every host transaction keeps the invariant (10_state.md section 5). -/
def Obligations.TransactionsKeepTheInvariant : Prop :=
  ∀ (p : Config.Params) (tr : Transaction) (s : State) (ans : Answer), s.Inv p → transact p tr s = .next ans → ans.state.Inv p

/-- In a legal state no transaction, step or run among them, ends in a fault or a refusal: a line without a token is never fetched (30_encoding.md R73). -/
def Obligations.TransactionsAlwaysComplete : Prop :=
  ∀ (p : Config.Params) (tr : Transaction) (s : State), s.Inv p → ∃ ans, transact p tr s = .next ans

/-! ## The host interface -/

/-- A LOAD within the bounds keeps the lines that have a token, in order, resets `pc`, the latches and the event record, and keeps
registers, memory and modified bits; one past `PROG_MAX` or `LINE_MAX` is refused as a whole and changes nothing (41_execution_engine.md R129, R130). -/
def Obligations.LoadReplacesTheProgramOrIsRefused : Prop :=
  ∀ (p : Config.Params) (lines : List Line) (s : State),
    ((lines.filter fun l => decide (tokens l ≠ [])).length ≤ p.progMax →
      (∀ l ∈ lines, tokens l ≠ [] → l.length ≤ p.lineMax) →
      ∃ t, transact p (.load lines) s = .next { state := t, response := .load .loadOk, events := [] } ∧
        t.prog = (lines.filter fun l => decide (tokens l ≠ [])) ∧ t.pc = 0 ∧ t.hltFlag = false ∧ t.faultFlag = false ∧
        t.event = { valid := false, code := 0, pc := 0, op := 0, opnd := 0 } ∧ s.SameStorage t) ∧
    (p.progMax < (lines.filter fun l => decide (tokens l ≠ [])).length ∨ (∃ l ∈ lines, tokens l ≠ [] ∧ p.lineMax < l.length) →
      transact p (.load lines) s = .next { state := s, response := .load .loadRefused, events := [] })

/-- RUN from a legal state repeats the step until Halted and returns there; the records it puts on the event port are those of its
steps, one each, in step order; already Halted, it takes no step (41_execution_engine.md R131, R134). That at most `N - pc` steps are taken
is R138, which the spec derives from R123, R128 and R29, and the model's RUN has that budget (log 17). -/
def Obligations.RunEndsHalted : Prop :=
  ∀ (p : Config.Params) (s : State), s.Inv p →
    ∃ k t evs, k ≤ s.progLen - s.pc ∧ transact p .run s = .next { state := t, response := .nothing, events := evs } ∧
      Sys2Proof.core.run k s = .next t ∧ s.run = .next t ∧ t.runState = .halted ∧ t.pc = s.pc + k ∧
      evs = runEvents s.stepsLeft s ∧ evs.length = k ∧
      (∀ j, j < k → ∃ u, Sys2Proof.core.run j s = .next u ∧ u.runState = .ready ∧ eventPort u = evs[j]?) ∧
      (s.runState = .halted → k = 0)

/-- Where a run ends (41_execution_engine.md R138, which the spec derives from R123, R128 and R29): each Ready step raises `pc` by 1; a run ends always, after at most `N - pc` steps; at the first HLT with reason HLT, at the first structural error with reason FAULT,
each at the index after it, and with neither, at `N` with reason END. -/
def Obligations.RunEndsAtTheFirstStop : Prop :=
  ∀ (p : Config.Params) (s : State), s.Inv p → s.hltFlag = false → s.faultFlag = false →
    (s.runState = .ready → s.pc < s.progLen ∧ ∃ t, step s = .next t ∧ t.pc = s.pc + 1) ∧
    (∃ t, s.run = .next t ∧ t.runState = .halted ∧ (runEvents s.stepsLeft s).length ≤ s.progLen - s.pc) ∧
    (∀ h line, s.pc ≤ h → s.prog[h]? = some line → decode line = .instr .hlt →
      (∀ j l, s.pc ≤ j → j < h → s.prog[j]? = some l → ∃ i, decode l = .instr i ∧ i ≠ .hlt) →
      ∃ t, s.run = .next t ∧ t.pc = h + 1 ∧ t.haltReason = .hlt ∧ (runEvents s.stepsLeft s).length = h + 1 - s.pc) ∧
    (∀ h line e k, s.pc ≤ h → s.prog[h]? = some line → decode line = .fault e k →
      (∀ j l, s.pc ≤ j → j < h → s.prog[j]? = some l → ∃ i, decode l = .instr i ∧ i ≠ .hlt) →
      ∃ t, s.run = .next t ∧ t.pc = h + 1 ∧ t.haltReason = .fault ∧ (runEvents s.stepsLeft s).length = h + 1 - s.pc) ∧
    ((∀ j l, s.pc ≤ j → s.prog[j]? = some l → ∃ i, decode l = .instr i ∧ i ≠ .hlt) →
      ∃ t, s.run = .next t ∧ t.pc = s.progLen ∧ t.haltReason = .programEnd ∧
        (runEvents s.stepsLeft s).length = s.progLen - s.pc)

/-- REPORT lists the registers in index order, and every address with its modified bit set, from 0 to 65535 in ascending order, with
its word (41_execution_engine.md R133). -/
def Obligations.ReportListsModifiedWordsInOrder : Prop :=
  ∀ (p : Config.Params) (s : State), s.Inv p →
    s.report.registers = [(.ax, s.readReg .ax), (.bx, s.readReg .bx), (.cx, s.readReg .cx), (.dx, s.readReg .dx)] ∧
    s.report.memory = ((List.range 65536).filter fun a => s.isModified (BitVec.ofNat 16 a)).map
      fun a => (a, s.memRead (BitVec.ofNat 16 a))

/-- In a legal state every field of READ_STATUS lies in its legal range, `PC_WIDTH` bits being the fewest that hold a line count
(10_state.md section 4; 00_scope.md section 3). -/
def Obligations.StatusFieldsAreInRange : Prop :=
  ∀ (p : Config.Params) (s : State), s.Inv p →
    s.readStatus.pc ≤ s.readStatus.progLen ∧ s.readStatus.progLen ≤ p.progMax ∧
    (s.readStatus.evValid = true → s.readStatus.evPc < s.readStatus.progLen) ∧
    s.readStatus.evCode.toNat ≤ 4 ∧ s.readStatus.evOp.toNat ≤ 6 ∧
    s.readStatus.pc < 2 ^ Config.pcWidth p ∧ s.readStatus.progLen < 2 ^ Config.pcWidth p ∧
    s.readStatus.evPc < 2 ^ Config.pcWidth p ∧ ∀ k, p.progMax < 2 ^ k → Config.pcWidth p ≤ k

/-- The read-out transactions return the register, the word, the modified bit or the status, change no state and emit nothing
(41_execution_engine.md R132). -/
def Obligations.ReadOutChangesNothing : Prop :=
  ∀ (p : Config.Params) (s : State),
    (∀ r, transact p (.readReg r) s = .next { state := s, response := .word (s.readReg r), events := [] }) ∧
    (∀ a, transact p (.readMem a) s = .next { state := s, response := .word (s.memRead a), events := [] }) ∧
    (∀ a, transact p (.readMod a) s = .next { state := s, response := .bit (s.isModified a), events := [] }) ∧
    transact p .readStatus s = .next
      { state := s
        response := .status
          { runState := s.runState.code, haltReason := s.haltReason.code, pc := s.pc, progLen := s.prog.length,
            evValid := s.event.valid, evCode := s.event.code, evPc := s.event.pc, evOp := s.event.op, evOpnd := s.event.opnd }
        events := [] } ∧
    transact p .report s = .next { state := s, response := .report s.report, events := [] }

/-- The severity tag of a record (60_exceptions.md section 3; that HLT's OK carries `info` is the model's reading, log 16). -/
def Obligations.SeverityOfEventRecords : Prop :=
  ∀ (i : Nat) (op : Opcode) (k : BitVec 2),
    EventRecord.severity { code := Event.ok.code, pc := i, op := op.code, opnd := k } =
      (if op = .hlt then some .info else some .debug) ∧
    EventRecord.severity { code := Event.divisionByZero.code, pc := i, op := op.code, opnd := k } = some .warning ∧
    EventRecord.severity { code := Event.unknownInstruction.code, pc := i, op := op.code, opnd := k } = some .warning ∧
    EventRecord.severity { code := Event.operandParseError.code, pc := i, op := op.code, opnd := k } = some .error ∧
    EventRecord.severity { code := Event.addressOutOfRange.code, pc := i, op := op.code, opnd := k } = some .error
end

