-- ==== Sys2Proof/Laws/Decode.lean ====
section
/-! SUPPORT. Lemmas about the tokeniser, the classifier, the decoder, the encoder and the packed word, one for each function. -/

namespace Sys2Proof

/-! ## Tokens -/

/-- Token bytes in front of a line join the run it opens with. -/
theorem splitTokens_token_append (t : Token) (h : ∀ b ∈ t, isWhitespace b = false) (l : Line) :
    splitTokens (t ++ l) = (t ++ (splitTokens l).1, (splitTokens l).2) := by
  induction t with
  | nil => rfl
  | cons b t ih =>
    have hb : isWhitespace b = false := h b (by simp)
    simp [splitTokens, hb, ih fun c hc => h c (List.mem_cons_of_mem _ hc)]

/-- A whitespace byte closes the run it follows. -/
theorem splitTokens_append_ws (l1 l2 : Line) (w : Byte) (h : isWhitespace w = true) :
    splitTokens (l1 ++ w :: l2) = ((splitTokens l1).1, (splitTokens l1).2 ++ tokens l2) := by
  induction l1 with
  | nil => simp [splitTokens, h, tokens]
  | cons b l ih =>
    by_cases hb : isWhitespace b = true
    · simp only [List.cons_append, splitTokens, hb, if_true, ih, consToken]
      split <;> simp
    · simp [splitTokens, hb, ih]

/-- The run a line opens with holds token bytes only, and each later token is such a run and not empty. -/
theorem splitTokens_ok (l : Line) :
    (∀ b ∈ (splitTokens l).1, isWhitespace b = false) ∧
    (∀ t ∈ (splitTokens l).2, t ≠ [] ∧ ∀ b ∈ t, isWhitespace b = false) := by
  induction l with
  | nil => simp [splitTokens]
  | cons b l ih =>
    by_cases hb : isWhitespace b = true
    · simp only [splitTokens, hb, if_true, List.not_mem_nil, false_implies, implies_true, true_and]
      intro t ht
      unfold consToken at ht
      split at ht
      · exact ih.2 t ht
      · rcases List.mem_cons.mp ht with rfl | ht
        · exact ⟨by assumption, ih.1⟩
        · exact ih.2 t ht
    · simp only [splitTokens, hb]
      refine ⟨fun c hc => ?_, ih.2⟩
      rcases List.mem_cons.mp hc with rfl | hc
      · simpa using hb
      · exact ih.1 c hc

/-- An empty token adds no byte. -/
theorem consToken_flatten (t : Token) (ts) : (consToken t ts).flatten = t ++ ts.flatten := by
  unfold consToken; split <;> simp_all

/-- No token byte is dropped, added or reordered. -/
theorem splitTokens_flatten (l : Line) :
    (splitTokens l).1 ++ (splitTokens l).2.flatten = l.filter fun b => !isWhitespace b := by
  induction l with
  | nil => rfl
  | cons b l ih =>
    by_cases hb : isWhitespace b = true
    · simp [splitTokens, hb, consToken_flatten, ih]
    · simp [splitTokens, hb, ih]

/-! ## Decimal digits -/

/-- A digit's byte has the digit's value. -/
theorem digitValue_ofNat {d : Nat} (h : d < 10) : digitValue (BitVec.ofNat 8 (0x30 + d)) = some d := by
  interval_cases d <;> rfl

/-- Only a digit's byte has a digit's value. -/
theorem digitValue_some {b : Byte} {d : Nat} (h : digitValue b = some d) : d < 10 ∧ b = BitVec.ofNat 8 (0x30 + d) := by
  unfold digitValue at h
  split at h
  · next hb =>
    have := Option.some.inj h
    refine ⟨by omega, BitVec.eq_of_toNat_eq ?_⟩
    simp only [BitVec.toNat_ofNat]; omega
  · cases h

/-- Reading digits goes on where it stopped. -/
theorem digitsFrom_append (acc : Nat) (l1 l2 : List Byte) :
    digitsFrom acc (l1 ++ l2) = (digitsFrom acc l1).bind fun n => digitsFrom n l2 := by
  induction l1 generalizing acc with
  | nil => rfl
  | cons b l ih =>
    simp only [List.cons_append, digitsFrom]
    cases digitValue b with
    | none => rfl
    | some d => exact ih _

/-- Digit bytes are read in base 10. -/
theorem digitsFrom_map (acc : Nat) (ds : List Nat) (h : ∀ d ∈ ds, d < 10) :
    digitsFrom acc (ds.map fun d => BitVec.ofNat 8 (0x30 + d)) = some (ds.foldl (fun a d => a * 10 + d) acc) := by
  induction ds generalizing acc with
  | nil => rfl
  | cons d ds ih =>
    simp only [List.map_cons, digitsFrom, digitValue_ofNat (h d (by simp)), List.foldl_cons]
    exact ih _ fun e he => h e (List.mem_cons_of_mem _ he)

/-- What is read is digit bytes. -/
theorem digitsFrom_some (acc n : Nat) (l : List Byte) (h : digitsFrom acc l = some n) :
    ∃ ds : List Nat, (∀ d ∈ ds, d < 10) ∧ l = ds.map (fun d => BitVec.ofNat 8 (0x30 + d)) := by
  induction l generalizing acc with
  | nil => exact ⟨[], by simp, rfl⟩
  | cons b l ih =>
    simp only [digitsFrom] at h
    cases hd : digitValue b with
    | none => simp [hd] at h
    | some d =>
      simp only [hd] at h
      obtain ⟨ds, h1, h2⟩ := ih _ h
      obtain ⟨h3, h4⟩ := digitValue_some hd
      exact ⟨d :: ds, by simpa using ⟨h3, h1⟩, by simp [h2, h4]⟩

/-- Reading in base 10, as Mathlib says it. -/
theorem foldl_ofDigits (acc : Nat) (ds : List Nat) :
    ds.foldl (fun a d => a * 10 + d) acc = acc * 10 ^ ds.length + Nat.ofDigits 10 ds.reverse := by
  induction ds generalizing acc with
  | nil => simp
  | cons d ds ih =>
    simp only [List.foldl_cons, ih, List.reverse_cons, Nat.ofDigits_append, List.length_cons, List.length_reverse,
      Nat.ofDigits_singleton]
    ring

/-- `digits` reads exactly the non-empty strings of digit bytes, in base 10. -/
theorem digits_iff (l : List Byte) (n : Nat) : digits l = some n ↔
    ∃ ds : List Nat, ds ≠ [] ∧ (∀ d ∈ ds, d < 10) ∧ l = ds.map (fun d => BitVec.ofNat 8 (0x30 + d)) ∧
      n = Nat.ofDigits 10 ds.reverse := by
  constructor
  · intro h
    cases l with
    | nil => cases h
    | cons b l =>
      obtain ⟨ds, h1, h2⟩ := digitsFrom_some _ _ _ h
      refine ⟨ds, fun e => by simp [e] at h2, h1, h2, ?_⟩
      rw [digits, h2, digitsFrom_map _ _ h1, foldl_ofDigits] at h
      simpa using h.symm
  · rintro ⟨ds, h0, h1, rfl, rfl⟩
    cases ds with
    | nil => exact absurd rfl h0
    | cons d ds =>
      have := digitsFrom_map 0 (d :: ds) h1
      rw [foldl_ofDigits] at this
      simpa [digits] using this

/-- A digit's byte is none of the bytes with a role of their own. -/
theorem digitByte_ne {d : Nat} (h : d < 10) : BitVec.ofNat 8 (0x30 + d) ≠ 0x2B ∧ BitVec.ofNat 8 (0x30 + d) ≠ 0x2D ∧
   BitVec.ofNat 8 (0x30 + d) ≠ 0x5B ∧ BitVec.ofNat 8 (0x30 + d) ≠ 0x5D ∧ BitVec.ofNat 8 (0x30 + d) ≠ 0x2C ∧ BitVec.ofNat 8 (0x30 + d) ≠ 0x58 ∧
   isWhitespace (BitVec.ofNat 8 (0x30 + d)) = false := by
  interval_cases d <;> decide

/-! ## Operand tokens -/

/-- `bracketInterior` finds exactly the bracketed tokens. -/
theorem bracketInterior_iff (t s : Token) : bracketInterior t = some s ↔ t = 0x5B :: (s ++ [0x5D]) := by
  constructor
  · intro h
    cases t with
    | nil => cases h
    | cons b l =>
      simp only [bracketInterior] at h
      split at h
      · next hb =>
        obtain ⟨h1, h2⟩ := hb
        have h3 := Option.some.inj h
        subst h1
        rw [← h3]
        congr 1
        exact (List.dropLast_append_getLast? _ h2).symm
      · cases h
  · rintro rfl
    simp [bracketInterior]

/-- `Reg.ofToken` finds exactly the four names. -/
theorem regOfToken_iff (t : Token) (r : Reg) : Reg.ofToken t = some r ↔ t = r.token := by
  constructor
  · intro h; unfold Reg.ofToken at h
    repeat' (split at h)
    all_goals first | (cases h; assumption) | cases h
  · rintro rfl; cases r <;> decide

/-- An address in range keeps its value. -/
theorem ofInt16 {n : Int} (h : ¬ (n < 0 ∨ 65535 < n)) : ((BitVec.ofInt 16 n).toNat : Int) = n := by
  simp only [BitVec.toNat_ofInt]; omega

/-- An immediate in range keeps its value. -/
theorem ofInt32 {n : Int} (h : ¬ (n < -2147483648 ∨ 2147483647 < n)) : (BitVec.ofInt 32 n).toInt = n := by
  rw [BitVec.toInt_ofInt, Int.bmod_eq_of_le] <;> omega

/-- Comma stripping keeps the number of tokens. -/
theorem stripComma_length (ops : List Token) : (stripComma ops).length = ops.length := by
  cases ops <;> simp [stripComma]

/-! ## Decoding a line -/

/-- Everything format F2 can decode to. -/
theorem decodeF2_instr {mk : Operand → Operand → Instr} {b : Bool} {ops : List Token} {i : Instr}
    (h : decodeF2 mk b ops = .instr i) :
    ∃ t1 t2 d1 d2, ops = [t1, t2] ∧ classify t1 = .ok d1 ∧ classify t2 = .ok d2 ∧ (b && !d1.isDestination) = false ∧
      i = mk d1 d2 := by
  unfold decodeF2 at h
  split at h
  · cases h
  · cases h
  · next t1 t2 =>
    split at h
    · cases h
    · next d1 h1 =>
      split at h
      · cases h
      · next hb =>
        split at h
        · cases h
        · next d2 h2 =>
          cases h
          exact ⟨t1, t2, d1, d2, rfl, h1, h2, by simpa using hb, rfl⟩
  · cases h

/-- Format F2 gives an instruction or a structural error, never a blank line. -/
theorem decodeF2_cases (mk : Operand → Operand → Instr) (b : Bool) (ops : List Token) :
    (∃ d1 d2, decodeF2 mk b ops = .instr (mk d1 d2)) ∨ ∃ e k, decodeF2 mk b ops = .fault e k := by
  unfold decodeF2
  split
  · exact .inr ⟨_, _, rfl⟩
  · exact .inr ⟨_, _, rfl⟩
  · split
    · exact .inr ⟨_, _, rfl⟩
    · split
      · exact .inr ⟨_, _, rfl⟩
      · split
        · exact .inr ⟨_, _, rfl⟩
        · exact .inl ⟨_, _, rfl⟩
  · exact .inr ⟨_, _, rfl⟩

/-- Two operand tokens that classify, the first one admitted, are an instruction. -/
theorem decodeF2_two {mk : Operand → Operand → Instr} {b : Bool} {t1 t2 : Token} {d1 d2 : Operand}
    (h1 : classify t1 = .ok d1) (h2 : classify t2 = .ok d2) (hb : (b && !d1.isDestination) = false) :
    decodeF2 mk b [t1, t2] = .instr (mk d1 d2) := by
  simp [decodeF2, h1, h2, hb]

/-- A line with a token is decoded by its mnemonic and its operand tokens. -/
theorem decode_of_tokens {line : Line} {mnem : Token} {ops : List Token} (h : tokens line = mnem :: ops) :
    lineOpcode line = Opcode.ofToken mnem ∧ decode line = decodeOperands (stripComma ops) (Opcode.ofToken mnem) := by
  simp only [lineOpcode, decode, h, and_self]

/-- A line that is not blank has a first token. -/
theorem decode_tokens {line : Line} (h : decode line ≠ .blank) : ∃ mnem ops, tokens line = mnem :: ops := by
  cases ht : tokens line with
  | nil => simp [decode, ht] at h
  | cons m o => exact ⟨m, o, rfl⟩

/-- An instruction has the opcode whose operand tokens it was decoded from. -/
theorem decodeOperands_opcode {ops : List Token} {op : Opcode} {i : Instr} (h : decodeOperands ops op = .instr i) : i.opcode = op := by
  cases op with
  | hlt => cases ops <;> cases h; rfl
  | unknown => cases h; rfl
  | _ =>
    obtain ⟨_, _, d1, d2, _, _, _, hb, rfl⟩ := decodeF2_instr h
    rfl

/-- Operand tokens never decode to a blank line. -/
theorem decodeOperands_ne_blank (ops : List Token) (op : Opcode) : decodeOperands ops op ≠ .blank := by
  intro h
  cases op with
  | hlt => cases ops <;> cases h
  | unknown => cases h
  | _ =>
    rcases decodeF2_cases _ _ ops with ⟨_, _, e⟩ | ⟨_, _, e⟩ <;> (exact DecodeResult.noConfusion (e.symm.trans h))

/-- Only a blank line decodes to one. -/
theorem decode_blank {line : Line} (h : decode line = .blank) : isBlank line = true := by
  cases ht : tokens line with
  | nil => simp [isBlank, ht]
  | cons m o => exact absurd ((decode_of_tokens ht).2.symm.trans h) (decodeOperands_ne_blank _ _)

/-- A line decodes to an instruction of the opcode its first token names. -/
theorem decode_opcode {line : Line} {i : Instr} (h : decode line = .instr i) : lineOpcode line = i.opcode := by
  obtain ⟨m, o, ht⟩ := decode_tokens (line := line) (by simp [h])
  obtain ⟨h1, h2⟩ := decode_of_tokens ht
  exact h1.trans (decodeOperands_opcode (h2.symm.trans h)).symm

/-- An unknown mnemonic raises no structural error. -/
theorem decode_fault_opcode {line : Line} {e k} (h : decode line = .fault e k) : lineOpcode line ≠ .unknown := by
  obtain ⟨m, o, ht⟩ := decode_tokens (line := line) (by simp [h])
  obtain ⟨h1, h2⟩ := decode_of_tokens ht
  rw [h1]; intro hu
  rw [h2, hu] at h
  cases h

/-! ## The encoder -/

/-- The encoder writes the decimal digits of a number. -/
theorem encodeNat_digits (fuel n : Nat) (h : n < 10 ^ (fuel + 1)) :
    ∃ ds : List Nat, ds ≠ [] ∧ (∀ d ∈ ds, d < 10) ∧ encodeNat fuel n = ds.map (fun d => BitVec.ofNat 8 (0x30 + d)) ∧
      n = Nat.ofDigits 10 ds.reverse := by
  induction fuel generalizing n with
  | zero => exact ⟨[n % 10], by simp, by simp; omega, rfl, by simp; omega⟩
  | succ f ih =>
    unfold encodeNat
    split
    · next h10 => exact ⟨[n], by simp, by simpa using h10, rfl, by simp⟩
    · obtain ⟨ds, h0, h1, h2, h3⟩ := ih (n / 10) (by rw [pow_succ] at h; omega)
      refine ⟨ds ++ [n % 10], by simp, ?_, ?_, ?_⟩
      · intro d hd
        rcases List.mem_append.mp hd with hd | hd
        · exact h1 d hd
        · simp at hd; omega
      · rw [h2]; simp [digitByte]
      · simp only [List.reverse_append, List.reverse_cons, List.reverse_nil, List.nil_append, List.singleton_append,
          Nat.ofDigits_cons]
        rw [← h3]; omega

/-- The encoder's digits hold no whitespace and no comma. -/
theorem encodeNat_bytes (fuel n : Nat) (h : n < 10 ^ (fuel + 1)) : encodeNat fuel n ≠ [] ∧
    ∀ b ∈ encodeNat fuel n, isWhitespace b = false ∧ b ≠ 0x2C := by
  obtain ⟨ds, h0, h1, h2, -⟩ := encodeNat_digits fuel n h
  rw [h2]
  refine ⟨by simpa using h0, fun b hb => ?_⟩
  obtain ⟨d, hd, rfl⟩ := List.mem_map.mp hb
  have := digitByte_ne (h1 d hd)
  exact ⟨this.2.2.2.2.2.2, this.2.2.2.2.1⟩

/-- An encoded operand is one token without a comma. -/
theorem encodeOperand_bytes (d : Operand) : encodeOperand d ≠ [] ∧
    ∀ b ∈ encodeOperand d, isWhitespace b = false ∧ b ≠ 0x2C := by
  cases d with
  | reg r => cases r <;> decide
  | mem a =>
    have := encodeNat_bytes 5 a.toNat (by have := a.isLt; norm_num; omega)
    refine ⟨by simp [encodeOperand], fun b hb => ?_⟩
    simp only [encodeOperand, List.mem_cons, List.mem_append, List.not_mem_nil, or_false] at hb
    rcases hb with rfl | hb | rfl
    · decide
    · exact this.2 b hb
    · decide
  | imm v =>
    have h1 := BitVec.toInt_lt (x := v)
    have h2 := BitVec.le_toInt (x := v)
    norm_num at h1 h2
    have := encodeNat_bytes 10 v.toInt.natAbs (by norm_num; omega)
    simp only [encodeOperand, encodeInt]
    split
    · refine ⟨by simp, fun b hb => ?_⟩
      rcases List.mem_cons.mp hb with rfl | hb
      · decide
      · exact this.2 b hb
    · exact this

/-! ## The packed word -/

/-- Opcode codes are read back. -/
theorem ofCode_iff (c : BitVec 3) (op : Opcode) : Opcode.ofCode c = some op ↔ op.code = c := by
  revert c; cases op <;> decide

/-- An operand that is read back has the class and payload it was read from. -/
theorem unpackOperand_some {c : BitVec 2} {p : BitVec 32} {d : Option Operand} (h : unpackOperand c p = some d) :
    classCode d = c ∧ payload d = p := by
  unfold unpackOperand at h
  split at h
  · next hc =>
    split at h
    · next hp => cases h; exact ⟨BitVec.eq_of_toNat_eq hc.symm, hp.symm⟩
    · cases h
  · next hc =>
    split at h
    · next hp =>
      cases h
      refine ⟨BitVec.eq_of_toNat_eq hc.symm, ?_⟩
      have hx : p = BitVec.ofNat 32 p.toNat := by simp
      generalize hn : p.toNat = n at hp hx
      subst hx
      interval_cases n <;> decide
    · cases h
  · next hc =>
    split at h
    · next hp =>
      cases h
      refine ⟨BitVec.eq_of_toNat_eq hc.symm, BitVec.eq_of_toNat_eq ?_⟩
      simp only [payload, BitVec.toNat_setWidth]; omega
    · cases h
  · next x h0 h1 h2 =>
    cases h
    refine ⟨BitVec.eq_of_toNat_eq ?_, rfl⟩
    have := c.isLt
    have a0 : c.toNat ≠ 0 := by assumption
    have a1 : c.toNat ≠ 1 := by assumption
    have a2 : c.toNat ≠ 2 := by assumption
    have h3 : c.toNat = 3 := by omega
    rw [h3]; rfl

/-- An operand's class and payload are read back. -/
theorem unpackOperand_eq (d : Option Operand) : unpackOperand (classCode d) (payload d) = some d := by
  cases d with
  | none => rfl
  | some d =>
    cases d with
    | reg r => cases r <;> decide
    | mem a =>
      have h : (payload (some (Operand.mem a))).toNat = a.toNat := by
        simp only [payload, BitVec.toNat_setWidth]; have := a.isLt; omega
      have h2 : a.toNat < 65536 := a.isLt
      have h3 : (payload (some (Operand.mem a))).setWidth 16 = a := by
        apply BitVec.eq_of_toNat_eq; rw [BitVec.toNat_setWidth, h]; omega
      show (if (payload (some (Operand.mem a))).toNat < 65536 then some (some (Operand.mem ((payload (some (Operand.mem a))).setWidth 16))) else none) = _
      rw [h, if_pos h2, h3]
    | imm v => rfl

/-- An instruction built from its parts has those parts. -/
theorem ofParts_some {op d1 d2 i} (h : Instr.ofParts op d1 d2 = some i) :
    i.opcode = op ∧ i.operands = (d1, d2) ∧ i.wf = true := by
  unfold Instr.ofParts at h
  split at h
  · split at h
    · next hd => cases h; exact ⟨rfl, rfl, hd⟩
    · cases h
  all_goals first | (cases h; exact ⟨rfl, rfl, rfl⟩) | cases h

end Sys2Proof
end

