-- ==== Sys2Proof/Laws/State.lean ====
section
/-! SUPPORT. One lemma per field per state update, each true by unfolding the update once. -/

namespace Sys2Proof.Machine

variable (s : State)

/-! ## advancePc -/

@[simp] theorem advancePc_ax : (s.advancePc).ax = s.ax := rfl
@[simp] theorem advancePc_bx : (s.advancePc).bx = s.bx := rfl
@[simp] theorem advancePc_cx : (s.advancePc).cx = s.cx := rfl
@[simp] theorem advancePc_dx : (s.advancePc).dx = s.dx := rfl
@[simp] theorem advancePc_mem : (s.advancePc).mem = s.mem := rfl
@[simp] theorem advancePc_modified : (s.advancePc).modified = s.modified := rfl
@[simp] theorem advancePc_prog : (s.advancePc).prog = s.prog := rfl
@[simp] theorem advancePc_pc : (s.advancePc).pc = s.pc + 1 := rfl
@[simp] theorem advancePc_hltFlag : (s.advancePc).hltFlag = s.hltFlag := rfl
@[simp] theorem advancePc_faultFlag : (s.advancePc).faultFlag = s.faultFlag := rfl
@[simp] theorem advancePc_event : (s.advancePc).event = s.event := rfl
@[simp] theorem advancePc_memRead (b : Addr) : (s.advancePc).memRead b = s.memRead b := rfl
@[simp] theorem advancePc_isModified (b : Addr) : (s.advancePc).isModified b = s.isModified b := rfl
@[simp] theorem advancePc_readReg (r : Reg) : (s.advancePc).readReg r = s.readReg r := by cases r <;> rfl

/-! ## memWrite -/

@[simp] theorem memWrite_ax (a : Addr) (v : Word) : (s.memWrite a v).ax = s.ax := rfl
@[simp] theorem memWrite_bx (a : Addr) (v : Word) : (s.memWrite a v).bx = s.bx := rfl
@[simp] theorem memWrite_cx (a : Addr) (v : Word) : (s.memWrite a v).cx = s.cx := rfl
@[simp] theorem memWrite_dx (a : Addr) (v : Word) : (s.memWrite a v).dx = s.dx := rfl
@[simp] theorem memWrite_mem (a : Addr) (v : Word) : (s.memWrite a v).mem = Memory.write a.toNat v s.mem := rfl
@[simp] theorem memWrite_modified (a : Addr) (v : Word) : (s.memWrite a v).modified = AddrSet.insert a.toNat s.modified := rfl
@[simp] theorem memWrite_prog (a : Addr) (v : Word) : (s.memWrite a v).prog = s.prog := rfl
@[simp] theorem memWrite_pc (a : Addr) (v : Word) : (s.memWrite a v).pc = s.pc := rfl
@[simp] theorem memWrite_hltFlag (a : Addr) (v : Word) : (s.memWrite a v).hltFlag = s.hltFlag := rfl
@[simp] theorem memWrite_faultFlag (a : Addr) (v : Word) : (s.memWrite a v).faultFlag = s.faultFlag := rfl
@[simp] theorem memWrite_event (a : Addr) (v : Word) : (s.memWrite a v).event = s.event := rfl
@[simp] theorem memWrite_readReg (a : Addr) (v : Word) (r : Reg) : (s.memWrite a v).readReg r = s.readReg r := by cases r <;> rfl

/-! ## emit -/

@[simp] theorem emit_ax (e : Event) (i : Nat) (op : Opcode) (k : BitVec 2) : (s.emit e i op k).ax = s.ax := rfl
@[simp] theorem emit_bx (e : Event) (i : Nat) (op : Opcode) (k : BitVec 2) : (s.emit e i op k).bx = s.bx := rfl
@[simp] theorem emit_cx (e : Event) (i : Nat) (op : Opcode) (k : BitVec 2) : (s.emit e i op k).cx = s.cx := rfl
@[simp] theorem emit_dx (e : Event) (i : Nat) (op : Opcode) (k : BitVec 2) : (s.emit e i op k).dx = s.dx := rfl
@[simp] theorem emit_mem (e : Event) (i : Nat) (op : Opcode) (k : BitVec 2) : (s.emit e i op k).mem = s.mem := rfl
@[simp] theorem emit_modified (e : Event) (i : Nat) (op : Opcode) (k : BitVec 2) : (s.emit e i op k).modified = s.modified := rfl
@[simp] theorem emit_prog (e : Event) (i : Nat) (op : Opcode) (k : BitVec 2) : (s.emit e i op k).prog = s.prog := rfl
@[simp] theorem emit_pc (e : Event) (i : Nat) (op : Opcode) (k : BitVec 2) : (s.emit e i op k).pc = s.pc := rfl
@[simp] theorem emit_hltFlag (e : Event) (i : Nat) (op : Opcode) (k : BitVec 2) : (s.emit e i op k).hltFlag = s.hltFlag := rfl
@[simp] theorem emit_faultFlag (e : Event) (i : Nat) (op : Opcode) (k : BitVec 2) : (s.emit e i op k).faultFlag = s.faultFlag := rfl
@[simp] theorem emit_event (e : Event) (i : Nat) (op : Opcode) (k : BitVec 2) : (s.emit e i op k).event = { valid := true, code := e.code, pc := i, op := op.code, opnd := k } := rfl
@[simp] theorem emit_memRead (e : Event) (i : Nat) (op : Opcode) (k : BitVec 2) (b : Addr) : (s.emit e i op k).memRead b = s.memRead b := rfl
@[simp] theorem emit_isModified (e : Event) (i : Nat) (op : Opcode) (k : BitVec 2) (b : Addr) : (s.emit e i op k).isModified b = s.isModified b := rfl
@[simp] theorem emit_readReg (e : Event) (i : Nat) (op : Opcode) (k : BitVec 2) (r : Reg) : (s.emit e i op k).readReg r = s.readReg r := by cases r <;> rfl

/-! ## setHlt -/

@[simp] theorem setHlt_ax : (s.setHlt).ax = s.ax := rfl
@[simp] theorem setHlt_bx : (s.setHlt).bx = s.bx := rfl
@[simp] theorem setHlt_cx : (s.setHlt).cx = s.cx := rfl
@[simp] theorem setHlt_dx : (s.setHlt).dx = s.dx := rfl
@[simp] theorem setHlt_mem : (s.setHlt).mem = s.mem := rfl
@[simp] theorem setHlt_modified : (s.setHlt).modified = s.modified := rfl
@[simp] theorem setHlt_prog : (s.setHlt).prog = s.prog := rfl
@[simp] theorem setHlt_pc : (s.setHlt).pc = s.pc := rfl
@[simp] theorem setHlt_hltFlag : (s.setHlt).hltFlag = true := rfl
@[simp] theorem setHlt_faultFlag : (s.setHlt).faultFlag = s.faultFlag := rfl
@[simp] theorem setHlt_event : (s.setHlt).event = s.event := rfl
@[simp] theorem setHlt_memRead (b : Addr) : (s.setHlt).memRead b = s.memRead b := rfl
@[simp] theorem setHlt_isModified (b : Addr) : (s.setHlt).isModified b = s.isModified b := rfl
@[simp] theorem setHlt_readReg (r : Reg) : (s.setHlt).readReg r = s.readReg r := by cases r <;> rfl

/-! ## setFault -/

@[simp] theorem setFault_ax : (s.setFault).ax = s.ax := rfl
@[simp] theorem setFault_bx : (s.setFault).bx = s.bx := rfl
@[simp] theorem setFault_cx : (s.setFault).cx = s.cx := rfl
@[simp] theorem setFault_dx : (s.setFault).dx = s.dx := rfl
@[simp] theorem setFault_mem : (s.setFault).mem = s.mem := rfl
@[simp] theorem setFault_modified : (s.setFault).modified = s.modified := rfl
@[simp] theorem setFault_prog : (s.setFault).prog = s.prog := rfl
@[simp] theorem setFault_pc : (s.setFault).pc = s.pc := rfl
@[simp] theorem setFault_hltFlag : (s.setFault).hltFlag = s.hltFlag := rfl
@[simp] theorem setFault_faultFlag : (s.setFault).faultFlag = true := rfl
@[simp] theorem setFault_event : (s.setFault).event = s.event := rfl
@[simp] theorem setFault_memRead (b : Addr) : (s.setFault).memRead b = s.memRead b := rfl
@[simp] theorem setFault_isModified (b : Addr) : (s.setFault).isModified b = s.isModified b := rfl
@[simp] theorem setFault_readReg (r : Reg) : (s.setFault).readReg r = s.readReg r := by cases r <;> rfl

/-! ## loaded -/

@[simp] theorem loaded_ax (lines : List Line) : (s.loaded lines).ax = s.ax := rfl
@[simp] theorem loaded_bx (lines : List Line) : (s.loaded lines).bx = s.bx := rfl
@[simp] theorem loaded_cx (lines : List Line) : (s.loaded lines).cx = s.cx := rfl
@[simp] theorem loaded_dx (lines : List Line) : (s.loaded lines).dx = s.dx := rfl
@[simp] theorem loaded_mem (lines : List Line) : (s.loaded lines).mem = s.mem := rfl
@[simp] theorem loaded_modified (lines : List Line) : (s.loaded lines).modified = s.modified := rfl
@[simp] theorem loaded_prog (lines : List Line) : (s.loaded lines).prog = keptLines lines := rfl
@[simp] theorem loaded_pc (lines : List Line) : (s.loaded lines).pc = 0 := rfl
@[simp] theorem loaded_hltFlag (lines : List Line) : (s.loaded lines).hltFlag = false := rfl
@[simp] theorem loaded_faultFlag (lines : List Line) : (s.loaded lines).faultFlag = false := rfl
@[simp] theorem loaded_event (lines : List Line) : (s.loaded lines).event = EventRegs.cleared := rfl
@[simp] theorem loaded_memRead (lines : List Line) (b : Addr) : (s.loaded lines).memRead b = s.memRead b := rfl
@[simp] theorem loaded_isModified (lines : List Line) (b : Addr) : (s.loaded lines).isModified b = s.isModified b := rfl
@[simp] theorem loaded_readReg (lines : List Line) (r : Reg) : (s.loaded lines).readReg r = s.readReg r := by cases r <;> rfl

/-! ## writeReg -/

@[simp] theorem writeReg_mem (r : Reg) (v : Word) : (s.writeReg r v).mem = s.mem := by cases r <;> rfl
@[simp] theorem writeReg_modified (r : Reg) (v : Word) : (s.writeReg r v).modified = s.modified := by cases r <;> rfl
@[simp] theorem writeReg_prog (r : Reg) (v : Word) : (s.writeReg r v).prog = s.prog := by cases r <;> rfl
@[simp] theorem writeReg_pc (r : Reg) (v : Word) : (s.writeReg r v).pc = s.pc := by cases r <;> rfl
@[simp] theorem writeReg_hltFlag (r : Reg) (v : Word) : (s.writeReg r v).hltFlag = s.hltFlag := by cases r <;> rfl
@[simp] theorem writeReg_faultFlag (r : Reg) (v : Word) : (s.writeReg r v).faultFlag = s.faultFlag := by cases r <;> rfl
@[simp] theorem writeReg_event (r : Reg) (v : Word) : (s.writeReg r v).event = s.event := by cases r <;> rfl
@[simp] theorem writeReg_memRead (r : Reg) (v : Word) (b : Addr) : (s.writeReg r v).memRead b = s.memRead b := by
  cases r <;> rfl
@[simp] theorem writeReg_isModified (r : Reg) (v : Word) (b : Addr) : (s.writeReg r v).isModified b = s.isModified b := by
  cases r <;> rfl
@[simp] theorem readReg_writeReg_same (r : Reg) (v : Word) : (s.writeReg r v).readReg r = v := by cases r <;> rfl
theorem readReg_writeReg_other (v : Word) : ∀ r q : Reg, q ≠ r → (s.writeReg r v).readReg q = s.readReg q := by
  intro r q h
  cases r <;> cases q <;> first | rfl | exact absurd rfl h

/-! ## takeStructuralError and writeAccumulator -/

@[simp] theorem takeStructuralError_ax (op : Opcode) (e : StructuralError) (k : BitVec 2) :
    (s.takeStructuralError op e k).ax = s.ax := rfl
@[simp] theorem takeStructuralError_bx (op : Opcode) (e : StructuralError) (k : BitVec 2) :
    (s.takeStructuralError op e k).bx = s.bx := rfl
@[simp] theorem takeStructuralError_cx (op : Opcode) (e : StructuralError) (k : BitVec 2) :
    (s.takeStructuralError op e k).cx = s.cx := rfl
@[simp] theorem takeStructuralError_dx (op : Opcode) (e : StructuralError) (k : BitVec 2) :
    (s.takeStructuralError op e k).dx = s.dx := rfl
@[simp] theorem takeStructuralError_mem (op : Opcode) (e : StructuralError) (k : BitVec 2) :
    (s.takeStructuralError op e k).mem = s.mem := rfl
@[simp] theorem takeStructuralError_modified (op : Opcode) (e : StructuralError) (k : BitVec 2) :
    (s.takeStructuralError op e k).modified = s.modified := rfl
@[simp] theorem takeStructuralError_prog (op : Opcode) (e : StructuralError) (k : BitVec 2) :
    (s.takeStructuralError op e k).prog = s.prog := rfl
@[simp] theorem takeStructuralError_pc (op : Opcode) (e : StructuralError) (k : BitVec 2) :
    (s.takeStructuralError op e k).pc = s.pc + 1 := rfl
@[simp] theorem takeStructuralError_hltFlag (op : Opcode) (e : StructuralError) (k : BitVec 2) :
    (s.takeStructuralError op e k).hltFlag = s.hltFlag := rfl
@[simp] theorem takeStructuralError_faultFlag (op : Opcode) (e : StructuralError) (k : BitVec 2) :
    (s.takeStructuralError op e k).faultFlag = true := rfl
@[simp] theorem takeStructuralError_event (op : Opcode) (e : StructuralError) (k : BitVec 2) :
    (s.takeStructuralError op e k).event = { valid := true, code := (eventOfError e).code, pc := s.pc, op := op.code, opnd := k } := rfl
@[simp] theorem writeAccumulator_ax (op : Opcode) (n : Int) :
    (writeAccumulator op n s).ax = wrapW n := rfl
@[simp] theorem writeAccumulator_bx (op : Opcode) (n : Int) :
    (writeAccumulator op n s).bx = s.bx := rfl
@[simp] theorem writeAccumulator_cx (op : Opcode) (n : Int) :
    (writeAccumulator op n s).cx = s.cx := rfl
@[simp] theorem writeAccumulator_dx (op : Opcode) (n : Int) :
    (writeAccumulator op n s).dx = s.dx := rfl
@[simp] theorem writeAccumulator_mem (op : Opcode) (n : Int) :
    (writeAccumulator op n s).mem = s.mem := rfl
@[simp] theorem writeAccumulator_modified (op : Opcode) (n : Int) :
    (writeAccumulator op n s).modified = s.modified := rfl
@[simp] theorem writeAccumulator_prog (op : Opcode) (n : Int) :
    (writeAccumulator op n s).prog = s.prog := rfl
@[simp] theorem writeAccumulator_pc (op : Opcode) (n : Int) :
    (writeAccumulator op n s).pc = s.pc + 1 := rfl
@[simp] theorem writeAccumulator_hltFlag (op : Opcode) (n : Int) :
    (writeAccumulator op n s).hltFlag = s.hltFlag := rfl
@[simp] theorem writeAccumulator_faultFlag (op : Opcode) (n : Int) :
    (writeAccumulator op n s).faultFlag = s.faultFlag := rfl
@[simp] theorem writeAccumulator_event (op : Opcode) (n : Int) :
    (writeAccumulator op n s).event = { valid := true, code := Event.ok.code, pc := s.pc, op := op.code, opnd := 0 } := rfl
@[simp] theorem takeStructuralError_memRead (op : Opcode) (e : StructuralError) (k : BitVec 2) (b : Addr) :
    (s.takeStructuralError op e k).memRead b = s.memRead b := rfl
@[simp] theorem takeStructuralError_isModified (op : Opcode) (e : StructuralError) (k : BitVec 2) (b : Addr) :
    (s.takeStructuralError op e k).isModified b = s.isModified b := rfl
@[simp] theorem takeStructuralError_readReg (op : Opcode) (e : StructuralError) (k : BitVec 2) (r : Reg) :
    (s.takeStructuralError op e k).readReg r = s.readReg r := by cases r <;> rfl
@[simp] theorem writeAccumulator_memRead (op : Opcode) (n : Int) (b : Addr) :
    (writeAccumulator op n s).memRead b = s.memRead b := rfl
@[simp] theorem writeAccumulator_isModified (op : Opcode) (n : Int) (b : Addr) :
    (writeAccumulator op n s).isModified b = s.isModified b := rfl
theorem writeAccumulator_readReg_other (op : Opcode) (n : Int) (r : Reg) (h : r ≠ .ax) :
    (writeAccumulator op n s).readReg r = s.readReg r := by
  cases r <;> first | rfl | exact absurd rfl h

/-! ## Codes tell their events and opcodes apart -/

@[simp] theorem event_code_inj (e f : Event) : e.code = f.code ↔ e = f := by cases e <;> cases f <;> decide
@[simp] theorem opcode_code_inj (e f : Opcode) : e.code = f.code ↔ e = f := by cases e <;> cases f <;> decide

end Sys2Proof.Machine
end

