-- ==== Sys2Proof/Laws/Memory.lean ====
section
/-! SUPPORT. The laws of the data memory and of the modified set: read after write, and that every operation keeps the canonical form. -/

namespace Sys2Proof.Machine

/-! ## consCell -/

theorem read_consCell_same (a : Nat) (v : Word) (m : Memory) (h : ∀ c ∈ m, a < c.1) :
    Memory.read a (Memory.consCell a v m) = v := by
  unfold Memory.consCell
  split
  · next hv =>
    subst hv
    induction m with
    | nil => rfl
    | cons c m ih =>
      have hc : a < c.1 := h c (by simp)
      have : c.1 ≠ a := by omega
      simp only [Memory.read, this, if_false]
      exact ih fun d hd => h d (List.mem_cons_of_mem _ hd)
  · simp [Memory.read]

theorem read_consCell_other (a b : Nat) (v : Word) (m : Memory) (h : b ≠ a) :
    Memory.read b (Memory.consCell a v m) = Memory.read b m := by
  unfold Memory.consCell
  split
  · rfl
  · simp [Memory.read, Ne.symm h]

/-! ## write, read after it -/

theorem wf_tail {c : Nat × Word} {m : Memory} (h : Memory.wf (c :: m)) : Memory.wf m := by
  obtain ⟨h1, h2⟩ := h
  exact ⟨(List.pairwise_cons.mp h1).2, fun d hd => h2 d (List.mem_cons_of_mem _ hd)⟩

theorem wf_head_lt {c : Nat × Word} {m : Memory} (h : Memory.wf (c :: m)) : ∀ d ∈ m, c.1 < d.1 :=
  (List.pairwise_cons.mp h.1).1

/-- Reading the address written gives the value written. -/
theorem read_write_same (a : Nat) (v : Word) (m : Memory) (h : m.wf) : Memory.read a (Memory.write a v m) = v := by
  induction m with
  | nil => exact read_consCell_same a v [] (by simp)
  | cons c m ih =>
    have hlt := wf_head_lt h
    unfold Memory.write
    split
    · next h1 =>
      have : c.1 ≠ a := by omega
      simp only [Memory.read, this, if_false]
      exact ih (wf_tail h)
    · split
      · next h2 => exact read_consCell_same a v m fun d hd => by have := hlt d hd; omega
      · refine read_consCell_same a v (c :: m) fun d hd => ?_
        rcases List.mem_cons.mp hd with rfl | hd
        · omega
        · have := hlt d hd; omega

/-- Reading any other address gives what it gave. -/
theorem read_write_other (a b : Nat) (v : Word) (m : Memory) (h : b ≠ a) :
    Memory.read b (Memory.write a v m) = Memory.read b m := by
  induction m with
  | nil => exact read_consCell_other a b v [] h
  | cons c m ih =>
    unfold Memory.write
    split
    · simp only [Memory.read, ih]
    · split
      · next h2 =>
        rw [read_consCell_other a b v m h]
        have : c.1 ≠ b := by omega
        simp [Memory.read, this]
      · exact read_consCell_other a b v (c :: m) h

/-! ## The canonical form is kept -/

theorem consCell_wf (a : Nat) (v : Word) (m : Memory) (ha : a < Config.memSize) (hm : m.wf) (h : ∀ c ∈ m, a < c.1) :
    (Memory.consCell a v m).wf := by
  unfold Memory.consCell
  split
  · exact hm
  · next hv =>
    refine ⟨List.pairwise_cons.mpr ⟨h, hm.1⟩, fun d hd => ?_⟩
    rcases List.mem_cons.mp hd with rfl | hd
    · exact ⟨ha, hv⟩
    · exact hm.2 d hd

theorem mem_write (a : Nat) (v : Word) (m : Memory) (d : Nat × Word) (h : d ∈ Memory.write a v m) : d = (a, v) ∨ d ∈ m := by
  have cons_case : ∀ n : Memory, d ∈ Memory.consCell a v n → d = (a, v) ∨ d ∈ n := by
    intro n hd
    unfold Memory.consCell at hd
    split at hd
    · exact .inr hd
    · exact List.mem_cons.mp hd
  induction m with
  | nil => exact cons_case _ h
  | cons c m ih =>
    unfold Memory.write at h
    split at h
    · rcases List.mem_cons.mp h with rfl | h
      · exact .inr (by simp)
      · exact (ih h).imp id (List.mem_cons_of_mem _)
    · split at h
      · exact (cons_case _ h).imp id (List.mem_cons_of_mem _)
      · exact cons_case _ h

/-- Storing a word keeps the canonical form. -/
theorem write_wf (a : Nat) (v : Word) (m : Memory) (ha : a < Config.memSize) (hm : m.wf) : (Memory.write a v m).wf := by
  induction m with
  | nil => exact consCell_wf a v [] ha hm (by simp)
  | cons c m ih =>
    have hlt := wf_head_lt hm
    have htl := ih (wf_tail hm)
    unfold Memory.write
    split
    · next h1 =>
      refine ⟨List.pairwise_cons.mpr ⟨fun d hd => ?_, htl.1⟩, fun d hd => ?_⟩
      · rcases mem_write a v m d hd with rfl | hd
        · exact h1
        · exact hlt d hd
      · rcases List.mem_cons.mp hd with rfl | hd
        · exact hm.2 _ (by simp)
        · exact htl.2 d hd
    · split
      · exact consCell_wf a v m ha (wf_tail hm) fun d hd => by have := hlt d hd; omega
      · refine consCell_wf a v (c :: m) ha hm fun d hd => ?_
        rcases List.mem_cons.mp hd with rfl | hd
        · omega
        · have := hlt d hd; omega

/-! ## The modified set -/

/-- What is in the set after adding an address. -/
theorem mem_insert (a b : Nat) (m : AddrSet) : b ∈ AddrSet.insert a m ↔ b = a ∨ b ∈ m := by
  induction m with
  | nil => simp [AddrSet.insert]
  | cons c m ih =>
    unfold AddrSet.insert
    split
    · simp only [List.mem_cons, ih]; tauto
    · split
      · next h => subst h; simp
      · simp

/-- Adding an address keeps the canonical form. -/
theorem insert_wf (a : Nat) (m : AddrSet) (ha : a < Config.memSize) (hm : m.wf) : (AddrSet.insert a m).wf := by
  refine ⟨?_, fun d hd => ?_⟩
  · induction m with
    | nil => simp [AddrSet.insert]
    | cons c m ih =>
      obtain ⟨h1, h2⟩ := List.pairwise_cons.mp hm.1
      have htl := ih ⟨h2, fun d hd => hm.2 d (List.mem_cons_of_mem _ hd)⟩
      unfold AddrSet.insert
      split
      · refine List.pairwise_cons.mpr ⟨fun d hd => ?_, htl⟩
        rcases (mem_insert a d m).mp hd with rfl | hd
        · assumption
        · exact h1 d hd
      · split
        · exact hm.1
        · refine List.pairwise_cons.mpr ⟨fun d hd => ?_, hm.1⟩
          rcases List.mem_cons.mp hd with rfl | hd
          · omega
          · have := h1 d hd; omega
  · rcases (mem_insert a d m).mp hd with rfl | hd
    · exact ha
    · exact hm.2 d hd

/-! ## memWrite, as the machine's state shows it -/

theorem memRead_memWrite_same (s : State) (a : Addr) (v : Word) (h : s.mem.wf) : (s.memWrite a v).memRead a = v :=
  read_write_same _ _ _ h

theorem memRead_memWrite_other (s : State) (a b : Addr) (v : Word) (h : b ≠ a) :
    (s.memWrite a v).memRead b = s.memRead b :=
  read_write_other _ _ _ _ fun e => h (BitVec.eq_of_toNat_eq e)

@[simp] theorem isModified_memWrite_same (s : State) (a : Addr) (v : Word) : (s.memWrite a v).isModified a = true := by
  simp [State.isModified, mem_insert]

theorem isModified_memWrite_other (s : State) (a b : Addr) (v : Word) (h : b ≠ a) :
    (s.memWrite a v).isModified b = s.isModified b := by
  have hne : ¬ b.toNat = a.toNat := fun e => h (BitVec.eq_of_toNat_eq e)
  have : (b.toNat ∈ AddrSet.insert a.toNat s.modified) ↔ b.toNat ∈ s.modified := by
    rw [mem_insert]; simp [hne]
  simp only [State.isModified, memWrite_modified, List.contains_eq_mem]
  exact decide_eq_decide.mpr this

/-- Storing a word keeps both canonical forms. -/
theorem memWrite_wf (s : State) (a : Addr) (v : Word) (h : s.mem.wf) (h' : s.modified.wf) :
    (s.memWrite a v).mem.wf ∧ (s.memWrite a v).modified.wf :=
  ⟨write_wf _ _ _ a.isLt h, insert_wf _ _ a.isLt h'⟩

/-- The reset memory and modified set are in canonical form. -/
theorem reset_memory_wf (p : Config.Params) : (State.resetWith p).mem.wf ∧ (State.resetWith p).modified.wf := by
  constructor <;> exact ⟨List.Pairwise.nil, fun c hc => absurd hc List.not_mem_nil⟩

end Sys2Proof.Machine
end

