-- ==== Sys2Proof/Laws/Exec.lean ====
section
/-! SUPPORT. What each shared operation, each meaning and the step can do, said once. Later proofs cite these instead of unfolding. -/

namespace Sys2Proof.Machine

/-! ## Operands -/

@[simp] theorem resolveSource_reg (r : Reg) (s : State) : resolveSource (.reg r) s = s.readReg r := rfl
@[simp] theorem resolveSource_mem (a : Addr) (s : State) : resolveSource (.mem a) s = s.memRead a := rfl
@[simp] theorem resolveSource_imm (v : Word) (s : State) : resolveSource (.imm v) s = v := rfl

/-- A destination write is a register write or a memory write. -/
theorem resolveDestination_cases {d : Operand} {v : Word} {s t : State} (h : resolveDestination d v s = some t) :
    (∃ r, d = .reg r ∧ t = s.writeReg r v) ∨ ∃ a, d = .mem a ∧ t = s.memWrite a v := by
  cases d with
  | reg r => exact .inl ⟨r, rfl, (Option.some.inj h).symm⟩
  | mem a => exact .inr ⟨a, rfl, (Option.some.inj h).symm⟩
  | imm w => cases h

/-! ## The meanings -/

theorem execMov_reg (r : Reg) (d2 : Operand) (s : State) :
    execMov (.reg r) d2 s = .next ((s.advancePc.writeReg r (resolveSource d2 s)).emit .ok s.pc .mov 0) := rfl

theorem execMov_mem (a : Addr) (d2 : Operand) (s : State) :
    execMov (.mem a) d2 s = .next ((s.advancePc.memWrite a (resolveSource d2 s)).emit .ok s.pc .mov 0) := rfl

theorem execMov_imm (v : Word) (d2 : Operand) (s : State) :
    execMov (.imm v) d2 s = .next (s.takeStructuralError .mov .operandParse 1) := rfl

theorem execDiv_zero {d1 d2 : Operand} {s : State} (h : resolveSource d2 s = 0) :
    execDiv d1 d2 s = .next (s.advancePc.emit .divisionByZero s.pc .div 2) := by
  simp [execDiv, h]

theorem execDiv_nonzero {d1 d2 : Operand} {s : State} (h : resolveSource d2 s ≠ 0) :
    execDiv d1 d2 s =
      .next (writeAccumulator .div (truncDiv (resolveSource d1 s).toInt (resolveSource d2 s).toInt) s) := by
  have : ¬ (resolveSource d2 s).toInt = 0 := fun e => h (BitVec.eq_of_toInt_eq (by simpa using e))
  simp [execDiv, this]

/-- The states an executed instruction can leave. -/
inductive ExecCase (i : Instr) (s t : State) : Prop where
  | movReg (r : Reg) (d : Operand) (hi : i = .mov (.reg r) d)
      (ht : t = (s.advancePc.writeReg r (resolveSource d s)).emit .ok s.pc .mov 0)
  | movMem (a : Addr) (d : Operand) (hi : i = .mov (.mem a) d)
      (ht : t = (s.advancePc.memWrite a (resolveSource d s)).emit .ok s.pc .mov 0)
  | movImm (v : Word) (d : Operand) (hi : i = .mov (.imm v) d) (ht : t = s.takeStructuralError .mov .operandParse 1)
  | arith (op : Opcode) (n : Int) (hop : op = .add ∨ op = .sub ∨ op = .mul ∨ op = .div) (hi : i.opcode = op)
      (hdiv : op = .div → ∃ d1 d2, i = .div d1 d2 ∧ resolveSource d2 s ≠ 0) (ht : t = writeAccumulator op n s)
  | divZero (d1 d2 : Operand) (hi : i = .div d1 d2) (h0 : resolveSource d2 s = 0)
      (ht : t = s.advancePc.emit .divisionByZero s.pc .div 2)
  | hlt (hi : i = .hlt) (ht : t = s.advancePc.setHlt.emit .ok s.pc .hlt 0)
  | unknown (hi : i = .unknown) (ht : t = s.advancePc.emit .unknownInstruction s.pc .unknown 0)

/-- Everything that exec can do when it answers a next state. -/
theorem exec_cases {i : Instr} {s t : State} (h : exec i s = .next t) : ExecCase i s t := by
  cases i with
  | mov d1 d2 =>
    cases d1 with
    | reg r => exact .movReg r d2 rfl (Host.Outcome.next.inj h).symm
    | mem a => exact .movMem a d2 rfl (Host.Outcome.next.inj h).symm
    | imm v => exact .movImm v d2 rfl (Host.Outcome.next.inj h).symm
  | add d1 d2 => exact .arith .add _ (by simp) rfl (by simp) (Host.Outcome.next.inj h).symm
  | sub d1 d2 => exact .arith .sub _ (by simp) rfl (by simp) (Host.Outcome.next.inj h).symm
  | mul d1 d2 => exact .arith .mul _ (by simp) rfl (by simp) (Host.Outcome.next.inj h).symm
  | div d1 d2 =>
    by_cases h0 : resolveSource d2 s = 0
    · exact .divZero d1 d2 rfl h0 (Host.Outcome.next.inj ((execDiv_zero h0).symm.trans h)).symm
    · exact .arith .div _ (by simp) rfl (fun _ => ⟨d1, d2, rfl, h0⟩)
        (Host.Outcome.next.inj ((execDiv_nonzero h0).symm.trans h)).symm
  | hlt => exact .hlt rfl (Host.Outcome.next.inj h).symm
  | unknown => exact .unknown rfl (Host.Outcome.next.inj h).symm

/-- Exec always answers a next state. -/
theorem exec_next (i : Instr) (s : State) : ∃ t, exec i s = .next t := by
  cases i with
  | mov d1 d2 => cases d1 <;> exact ⟨_, rfl⟩
  | div d1 d2 =>
    by_cases h0 : resolveSource d2 s = 0
    · exact ⟨_, execDiv_zero h0⟩
    · exact ⟨_, execDiv_nonzero h0⟩
  | _ => exact ⟨_, rfl⟩

/-! ## Run state and fetch -/

theorem runState_ready_iff (s : State) :
    s.runState = .ready ↔ s.hltFlag = false ∧ s.faultFlag = false ∧ s.pc < s.progLen := by
  unfold State.runState
  split
  · next h =>
    constructor
    · intro e; cases e
    · rintro ⟨h1, h2, h3⟩
      rcases h with h | h | h
      · simp [h1] at h
      · simp [h2] at h
      · omega
  · next h =>
    simp only [not_or, Bool.not_eq_true, Nat.not_le] at h
    exact ⟨fun _ => h, fun _ => rfl⟩

theorem runState_halted_iff (s : State) :
    s.runState = .halted ↔ s.hltFlag = true ∨ s.faultFlag = true ∨ s.progLen ≤ s.pc := by
  unfold State.runState
  split <;> simp_all

theorem fetchLine_halted {s : State} (h : s.runState = .halted) : s.fetchLine = none := by
  simp [State.fetchLine, h]

theorem fetchLine_ready {s : State} (h : s.runState = .ready) : ∃ line, s.prog[s.pc]? = some line ∧ s.fetchLine = some line := by
  have hlt : s.pc < s.prog.length := ((runState_ready_iff s).mp h).2.2
  exact ⟨s.prog[s.pc], List.getElem?_eq_getElem hlt, by simp [State.fetchLine, h, List.getElem?_eq_getElem hlt]⟩

theorem fetchLine_some {s : State} {line : Line} (h : s.fetchLine = some line) :
    s.runState = .ready ∧ s.prog[s.pc]? = some line := by
  cases hr : s.runState with
  | ready => exact ⟨rfl, by simpa [State.fetchLine, hr] using h⟩
  | halted => simp [State.fetchLine, hr] at h

theorem fetchLine_mem {s : State} {line : Line} (h : s.fetchLine = some line) : line ∈ s.prog :=
  List.mem_of_getElem? (fetchLine_some h).2

/-! ## The step -/

/-- The states a step can leave. -/
inductive StepCase (s t : State) : Prop where
  | halted (hr : s.runState = .halted) (ht : t = s)
  | instr (line : Line) (i : Instr) (hf : s.fetchLine = some line) (hd : decode line = .instr i) (hx : ExecCase i s t)
  | fault (line : Line) (e : StructuralError) (k : BitVec 2) (hf : s.fetchLine = some line) (hd : decode line = .fault e k)
      (ht : t = s.takeStructuralError (lineOpcode line) e k)

/-- Everything that a step can do when it answers a next state. -/
theorem step_cases {s t : State} (h : step s = .next t) : StepCase s t := by
  cases hf : s.fetchLine with
  | none =>
    have hr : s.runState = .halted := by
      cases hr : s.runState with
      | halted => rfl
      | ready => obtain ⟨l, _, hl⟩ := fetchLine_ready hr; rw [hl] at hf; cases hf
    refine .halted hr ?_
    simp only [step, hf] at h
    exact (Host.Outcome.next.inj h).symm
  | some line =>
    simp only [step, hf] at h
    cases hd : decode line with
    | instr i => exact .instr line i hf hd (exec_cases (by simpa only [runLine, hd] using h))
    | fault e k =>
      refine .fault line e k hf hd ?_
      simp only [runLine, hd] at h
      exact (Host.Outcome.next.inj h).symm
    | blank => simp [runLine, hd] at h

theorem step_instr {s : State} {line : Line} {i : Instr} (hf : s.fetchLine = some line) (hd : decode line = .instr i) :
    step s = exec i s := by
  simp [step, runLine, hf, hd]

theorem step_fault {s : State} {line : Line} {e : StructuralError} {k : BitVec 2} (hf : s.fetchLine = some line)
    (hd : decode line = .fault e k) : step s = .next (s.takeStructuralError (lineOpcode line) e k) := by
  simp [step, runLine, hf, hd]

theorem step_halted {s : State} (h : s.runState = .halted) : step s = .next s := by
  simp [step, fetchLine_halted h]

end Sys2Proof.Machine
end

