-- ==== Sys2Proof/Laws/PerInstr.lean ====
section
/-! SUPPORT. One lemma per constructor of `Instr`, for the families that LAWS.json names. -/

namespace Sys2Proof.Laws

/-- An instruction has two operands in its packed word exactly when its mnemonic takes two (30_encoding.md R78, R88). -/
def OperandsMatchArity.Statement (i : Instr) : Prop :=
  (i.opcode.arity = some 2 ↔ i.operands.1.isSome = true ∧ i.operands.2.isSome = true) ∧
  (i.operands.1 = none ↔ i.operands.2 = none)

theorem OperandsMatchArity.mov (d1 d2 : Operand) : OperandsMatchArity.Statement (.mov d1 d2) := by
  constructor <;> simp [Instr.operands, Instr.opcode, Opcode.arity]

theorem OperandsMatchArity.add (d1 d2 : Operand) : OperandsMatchArity.Statement (.add d1 d2) := by
  constructor <;> simp [Instr.operands, Instr.opcode, Opcode.arity]

theorem OperandsMatchArity.sub (d1 d2 : Operand) : OperandsMatchArity.Statement (.sub d1 d2) := by
  constructor <;> simp [Instr.operands, Instr.opcode, Opcode.arity]

theorem OperandsMatchArity.mul (d1 d2 : Operand) : OperandsMatchArity.Statement (.mul d1 d2) := by
  constructor <;> simp [Instr.operands, Instr.opcode, Opcode.arity]

theorem OperandsMatchArity.div (d1 d2 : Operand) : OperandsMatchArity.Statement (.div d1 d2) := by
  constructor <;> simp [Instr.operands, Instr.opcode, Opcode.arity]

theorem OperandsMatchArity.hlt : OperandsMatchArity.Statement .hlt := by
  constructor <;> simp [Instr.operands, Instr.opcode, Opcode.arity]

theorem OperandsMatchArity.unknown : OperandsMatchArity.Statement .unknown := by
  constructor <;> simp [Instr.operands, Instr.opcode, Opcode.arity]

end Sys2Proof.Laws
end

