-- ==== Sys2Proof/Laws/Step.lean ====
section
/-! SUPPORT. What an executed instruction and a step in Ready leave in `pc`, the record and the program store; LOAD and runs. -/

namespace Sys2Proof.Machine

/-- Every executed instruction advances `pc`, records the line at `pc` and keeps the program store. -/
theorem ExecCase.fetched {i : Instr} {s t : State} (h : ExecCase i s t) :
    t.pc = s.pc + 1 ∧ t.event.pc = s.pc ∧ t.event.valid = true ∧ t.prog = s.prog := by
  cases h with
  | movReg _ _ _ ht => subst ht; simp
  | movMem _ _ _ ht => subst ht; simp
  | movImm _ _ _ ht => subst ht; simp
  | arith _ _ _ _ _ ht => subst ht; simp
  | divZero _ _ _ _ ht => subst ht; simp
  | hlt _ ht => subst ht; simp
  | unknown _ ht => subst ht; simp

/-- Every executed instruction records an event and an opcode, so no reserved code. -/
theorem ExecCase.codes {i : Instr} {s t : State} (h : ExecCase i s t) :
    ∃ (e : Event) (op : Opcode), t.event.code = e.code ∧ t.event.op = op.code := by
  cases h with
  | movReg _ _ _ ht => subst ht; exact ⟨.ok, .mov, rfl, rfl⟩
  | movMem _ _ _ ht => subst ht; exact ⟨.ok, .mov, rfl, rfl⟩
  | movImm _ _ _ ht => subst ht; exact ⟨.operandParseError, .mov, rfl, rfl⟩
  | arith op _ _ _ _ ht => subst ht; exact ⟨.ok, op, rfl, rfl⟩
  | divZero _ _ _ _ ht => subst ht; exact ⟨.divisionByZero, .div, rfl, rfl⟩
  | hlt _ ht => subst ht; exact ⟨.ok, .hlt, rfl, rfl⟩
  | unknown _ ht => subst ht; exact ⟨.unknownInstruction, .unknown, rfl, rfl⟩

/-- A structural error leaves the block Halted with reason FAULT. -/
theorem faultFlag_halts {s : State} (h : s.faultFlag = true) : s.runState = .halted ∧ s.haltReason = .fault := by
  have h1 : s.runState = .halted := by rw [runState_halted_iff]; simp [h]
  exact ⟨h1, by simp [State.haltReason, h1, h]⟩

/-- Steps are not taken in Halted. -/
theorem runSteps_halted (k : Nat) {s : State} (h : s.runState = .halted) : runSteps k s = .next s ∧ runEvents k s = [] := by
  cases k <;> simp [runSteps, runEvents, h]

/-- A run of one more step than the rest takes the step first. -/
theorem runSteps_ready (k : Nat) {s t : State} (hr : s.runState = .ready) (h : step s = .next t) :
    runSteps (k + 1) s = runSteps k t ∧ runEvents (k + 1) s = t.lastRecord :: runEvents k t := by
  simp [runSteps, runEvents, hr, h]

/-- A word wrapped to 32 bits keeps a value that is in range. -/
theorem toInt_wrapW_of_inRange {n : Int} (h : ¬(n < -2147483648 ∨ 2147483647 < n)) : (wrapW n).toInt = n := ofInt32 h

/-- The range of a word. -/
theorem toInt_bounds (w : Word) : -2147483648 ≤ w.toInt ∧ w.toInt ≤ 2147483647 := by
  have h1 := BitVec.toInt_lt (x := w)
  have h2 := BitVec.le_toInt (x := w)
  norm_num at h1 h2
  omega

/-- A LOAD keeps exactly the lines with a token. -/
theorem mem_keptLines (lines : List Line) (l : Line) : l ∈ keptLines lines ↔ l ∈ lines ∧ tokens l ≠ [] := by
  simp [keptLines, isBlank, List.mem_filter]

end Sys2Proof.Machine
end

