-- ==== Sys2Proof/Tests/Slice0.lean ====
section
/-! SUPPORT. The model's own tests. Expected values come from spec/95_test_vectors.md (the section each docstring names) or from the rule named. A theorem named witness_<...> shows values that meet the hypotheses of the statement it names. -/

namespace Sys2Proof.Tests

open Sys2Proof.Machine

/-! ## Helpers -/

/-- A line's bytes from its ASCII text (00_scope.md R8). -/
def ascii (text : String) : Line := text.toList.map fun c => BitVec.ofNat 8 c.toNat

/-- The state after RESET in the reference configuration and LOAD of these lines (95_test_vectors.md, Conventions). -/
def loadedWith (lines : List String) : State := State.reset.loaded (lines.map ascii)

/-- The state an outcome leaves, if it is a next state. -/
def nextOf (o : Host.Outcome State Fault Refusal) : Option State :=
  match o with
  | .next t => some t
  | .fault _ => none
  | .refused _ => none

/-- The record `(code, pc, op, opnd)` a step from this state leaves (60_exceptions.md R201). -/
def recordOf (s : State) : Option (Nat × Nat × Nat × Nat) :=
  (nextOf (step s)).map fun t => (t.event.code.toNat, t.event.pc, t.event.op.toNat, t.event.opnd.toNat)

/-- AX, as a signed number, after one step. -/
def axAfter (s : State) : Option Int := (nextOf (step s)).map fun t => t.ax.toInt

/-! ## WellFormed -/

/-- The one ill-formed shape, a MOV to an immediate, is refused by the check (30_encoding.md R79). -/
theorem test_wf_refuses_immediate_destination : (Instr.mov (.imm 5) (.reg .ax)).wf = false := by decide

/-- A two-source instruction may have an immediate first (30_encoding.md R79). -/
theorem test_wf_admits_immediate_source : (Instr.add (.imm 2) (.imm 3)).wf = true := by decide

/-! ## Decoding, byte for byte -/

/-- One line of every constructor, written out from 30_encoding.md R74 and R76. -/
theorem test_decode_each_constructor :
    decode [0x4D, 0x4F, 0x56, 0x20, 0x41, 0x58, 0x2C, 0x20, 0x37] = .instr (.mov (.reg .ax) (.imm 7)) ∧
    decode [0x41, 0x44, 0x44, 0x20, 0x32, 0x2C, 0x20, 0x33] = .instr (.add (.imm 2) (.imm 3)) ∧
    decode [0x53, 0x55, 0x42, 0x20, 0x5B, 0x30, 0x5D, 0x2C, 0x20, 0x2D, 0x31] = .instr (.sub (.mem 0) (.imm (-1))) ∧
    decode [0x4D, 0x55, 0x4C, 0x20, 0x43, 0x58, 0x2C, 0x20, 0x44, 0x58] = .instr (.mul (.reg .cx) (.reg .dx)) ∧
    decode [0x44, 0x49, 0x56, 0x20, 0x41, 0x58, 0x2C, 0x20, 0x30] = .instr (.div (.reg .ax) (.imm 0)) ∧
    decode [0x48, 0x4C, 0x54] = .instr .hlt ∧
    decode [0x4E, 0x4F, 0x50] = .instr .unknown := by decide

/-- Section 2.1: whitespace, signs, leading zeros and case. -/
theorem test_decode_free_form :
    decode (ascii "  MOV\tAX,   -2147483648  ") = .instr (.mov (.reg .ax) (.imm 0x80000000)) ∧
    decode (ascii "MOV AX, [+7]") = .instr (.mov (.reg .ax) (.mem 7)) ∧
    decode (ascii "MOV AX, [007]") = .instr (.mov (.reg .ax) (.mem 7)) ∧
    decode (ascii "FOO [70000], junk") = .instr .unknown := by decide

/-- Section 2.1: operand-count faults and the positions they name. -/
theorem test_decode_count_faults :
    decode (ascii "MOV") = .fault .operandParse 1 ∧ decode (ascii "MOV AX") = .fault .operandParse 2 ∧
    decode (ascii "MOV AX,5") = .fault .operandParse 2 ∧ decode (ascii "MOV AX , 5") = .fault .operandParse 3 ∧
    decode (ascii "MOV AX, 1 ; c") = .fault .operandParse 3 ∧ decode (ascii "HLT ,") = .fault .operandParse 1 := by decide

/-- Section 2.1: malformed operands. -/
theorem test_decode_malformed_operands :
    decode (ascii "MOV AX,, 5") = .fault .operandParse 1 ∧ decode (ascii "MOV , 5") = .fault .operandParse 1 ∧
    decode (ascii "MOV 5, AX") = .fault .operandParse 1 ∧ decode (ascii "MOV ax, 1") = .fault .operandParse 1 ∧
    decode (ascii "MOV AX, [10") = .fault .operandParse 2 ∧ decode (ascii "MOV AX, []") = .fault .operandParse 2 ∧
    decode (ascii "ADD [BX], 1") = .fault .operandParse 1 ∧ decode (ascii "MOV AX, 2147483648") = .fault .operandParse 2 ∧
    decode (ascii "MOV AX, -2147483649") = .fault .operandParse 2 ∧ decode (ascii "MOV AX, 0x10") = .fault .operandParse 2 := by
  decide

/-- Sections 2.1 and 2.7: addresses out of range, and the order of the checks. -/
theorem test_decode_order_of_checks :
    decode (ascii "MOV [65536], 1") = .fault .addressOutOfRange 1 ∧ decode (ascii "MOV AX, [-1]") = .fault .addressOutOfRange 2 ∧
    decode (ascii "MOV [70000]") = .fault .operandParse 2 ∧ decode (ascii "MOV [70000], junk") = .fault .addressOutOfRange 1 ∧
    decode (ascii "MOV junk, [70000]") = .fault .operandParse 1 ∧ decode (ascii "MOV 5, [70000]") = .fault .operandParse 1 ∧
    decode (ascii "DIV AX, [70000]") = .fault .addressOutOfRange 2 := by decide

/-- Section 2.2: the classifier at its boundaries. -/
theorem test_classifier_boundaries :
    classify (ascii "[65535]") = .ok (.mem 65535) ∧ classify (ascii "[-0]") = .ok (.mem 0) ∧
    classify (ascii "[99999999999999999999]") = .error .addressOutOfRange ∧ classify (ascii "[[5]]") = .error .operandParse ∧
    classify (ascii "[") = .error .operandParse ∧ classify (ascii "EX") = .error .operandParse ∧
    classify (ascii "2147483647") = .ok (.imm 0x7FFFFFFF) ∧ classify (ascii "-") = .error .operandParse ∧
    classify [] = .error .operandParse := by decide

/-- Section 2.1: packed words. -/
theorem test_packed_words :
    pack (.mov (.reg .ax) (.imm 7)) = 0x3E000000008 ∧ pack (.mov (.mem 10) (.imm 42)) = 0x156000000150 ∧
    pack (.sub (.mem 0) (.imm (-1))) = 0x7FFFFFFFE000000012 ∧ pack (.mul (.reg .cx) (.reg .dx)) = 0x1A00000004B ∧
    pack (.mov (.mem 65535) (.imm 1)) = 0xE0001FFFF0 ∧ pack .hlt = 0x5 ∧ pack .unknown = 0x6 := by decide

/-- The canonical spelling (30_encoding.md R74). -/
theorem test_encode_canonical :
    encode (.mov (.mem 65535) (.imm 0x80000000)) = ascii "MOV [65535], -2147483648" ∧
    encode (.div (.reg .dx) (.mem 100)) = ascii "DIV DX, [100]" := by decide

/-- Every row of the opcode table, by its mnemonic token's bits, most significant byte first (log 11). -/
theorem test_table_words :
    decodeTableWord 24 0x4D4F56 = some (.mov (.mem 0) (.imm 0)) ∧ decodeTableWord 24 0x414444 = some (.add (.mem 0) (.imm 0)) ∧
    decodeTableWord 24 0x535542 = some (.sub (.mem 0) (.imm 0)) ∧ decodeTableWord 24 0x4D554C = some (.mul (.mem 0) (.imm 0)) ∧
    decodeTableWord 24 0x444956 = some (.div (.mem 0) (.imm 0)) ∧ decodeTableWord 24 0x484C54 = some .hlt ∧
    decodeTableWord 8 0 = some .unknown := by decide

/-- The step after `withFetchWord` runs the table word's instruction as the first one after reset (log 12). -/
theorem test_fetch_word_runs :
    step (State.reset.withFetchWord 24 0x444956) = exec (.div (.mem 0) (.imm 0)) (State.reset.withFetchWord 24 0x444956) := rfl

/-! ## Instructions, one step each -/

/-- Section 2.3: MOV to a register, and to a word. -/
theorem test_mov :
    (nextOf (step (loadedWith ["MOV BX, -5"]))).map (fun t => t.bx.toInt) = some (-5) ∧
    (nextOf (step { loadedWith ["MOV [3], AX"] with ax := 9 })).map (fun t => (t.mem, t.modified)) = some ([(3, 9)], [3]) := by
  decide

/-- Section 2.3: a word written with the 0 it held is marked as written, and the memory stays canonical. -/
theorem test_mov_marks_zero : (nextOf (step (loadedWith ["MOV [6], [6]"]))).map (fun t => (t.mem, t.modified)) = some ([], [6]) := by
  decide

/-- Section 2.4: the first operand is a source, and overflow wraps. -/
theorem test_add :
    (nextOf (step { loadedWith ["ADD BX, 4"] with bx := 3 })).map (fun t => (t.ax, t.bx)) = some (7, 3) ∧
    axAfter { loadedWith ["ADD AX, 1"] with ax := 0x7FFFFFFF } = some (-2147483648) := by decide

/-- Section 2.4: operand order, and the wrap of 0 - MIN. -/
theorem test_sub :
    axAfter { loadedWith ["SUB 10, BX"] with bx := 3 } = some 7 ∧
    axAfter (loadedWith ["SUB 0, -2147483648"]) = some (-2147483648) := by decide

/-- Section 2.4: sign, and the low half of a wide product. -/
theorem test_mul :
    axAfter (loadedWith ["MUL -6, 7"]) = some (-42) ∧ axAfter (loadedWith ["MUL 46341, 46341"]) = some (-2147479015) := by decide

/-- Section 2.4: truncation toward zero at every sign, and MIN / -1. -/
theorem test_div :
    axAfter (loadedWith ["DIV 7, 2"]) = some 3 ∧ axAfter (loadedWith ["DIV -7, 2"]) = some (-3) ∧
    axAfter (loadedWith ["DIV 7, -2"]) = some (-3) ∧ axAfter (loadedWith ["DIV -7, -2"]) = some 3 ∧
    axAfter (loadedWith ["DIV -2147483648, -1"]) = some (-2147483648) := by decide

/-- Section 2.4: a zero divisor read from memory keeps AX and is event (DivisionByZero, 0, DIV, 2). -/
theorem test_div_by_zero :
    axAfter { loadedWith ["DIV AX, [7]"] with ax := 12 } = some 12 ∧
    recordOf (loadedWith ["DIV AX, [7]"]) = some (1, 0, 4, 2) := by decide

/-- Section 2.5: HLT as the last line gives pc = N and reason HLT. -/
theorem test_hlt :
    (nextOf (step (loadedWith ["HLT"]))).map (fun t => (t.pc, t.haltReason)) = some (1, .hlt) ∧
    recordOf (loadedWith ["HLT"]) = some (0, 0, 5, 0) := by decide

/-- Section 2.5: an unknown last line ends the program. -/
theorem test_unknown :
    (nextOf (step (loadedWith ["hlt"]))).map (fun t => (t.pc, t.haltReason)) = some (1, .programEnd) ∧
    recordOf (loadedWith ["hlt"]) = some (2, 0, 6, 0) := by decide

/-- S8: a structural error writes nothing, halts, and names its operand. -/
theorem test_structural_error :
    (nextOf (step (loadedWith ["MOV [70000], 1"]))).map (fun t => (t.mem, t.modified, t.pc, t.haltReason)) = some ([], [], 1, .fault) ∧
    recordOf (loadedWith ["MOV [70000], 1"]) = some (4, 0, 0, 1) := by decide

/-- Section 2.6: blank lines are dropped, and the bounds of LOAD. -/
theorem test_load :
    ((State.reset.load Config.reference [ascii "MOV AX, 1", ascii "", ascii " \t", ascii "HLT"]).2.prog = [ascii "MOV AX, 1", ascii "HLT"]) ∧
    (State.reset.load { Config.reference with progMax := 1 } [ascii "HLT", ascii "HLT"]).1 = .loadRefused := by decide

/-- Section 2.6: RESET only; a step then does nothing. -/
theorem test_reset_status :
    State.reset.readStatus.runState = 1 ∧ State.reset.readStatus.haltReason = 2 ∧ nextOf (step State.reset) = some State.reset := by
  decide

/-- S3: REPORT after two steps lists the word written. -/
theorem test_report :
    ((nextOf (step (loadedWith ["MOV [10], 42", "MOV BX, [10]"]))).bind fun t => (nextOf (step t)).map State.report) =
      some { registers := [(.ax, 0), (.bx, 42), (.cx, 0), (.dx, 0)], memory := [(10, 42)] } := by decide

/-! ## Witnesses: values that meet the hypotheses of the statements -/

/-- A state right after an accepted LOAD from reset is legal: the premise of every statement about legal states. -/
theorem loaded_from_reset_is_legal (p : Config.Params) (lines : List Line) (h : loadRefuses p lines = false) :
    ((State.resetWith p).loaded lines).Inv p := by
  simp only [loadRefuses, Bool.or_eq_false_iff, decide_eq_false_iff_not, Nat.not_lt, List.any_eq_false, decide_eq_true_eq] at h
  constructor
  · exact (reset_memory_wf p).1
  · exact (reset_memory_wf p).2
  · intro a ha; exact absurd rfl ha
  · exact Nat.zero_le _
  · exact h.1
  · intro l hl
    refine ⟨?_, h.2 l hl⟩
    simp only [loaded_prog, keptLines, List.mem_filter] at hl
    simpa using hl.2
  all_goals simp [EventRegs.cleared]
  all_goals decide

/-- A program with a store at the top address, a recoverable event, a halt, and a line never reached. -/
def sample : State := loadedWith ["MOV [65535], -9", "DIV AX, 0", "HLT", "MOV [70000], 1"]

/-- DecodeOfEncodeIsTheInstruction, UnpackOfPackIsTheInstruction. -/
theorem witness_well_formed : (Instr.mov (.mem 65535) (.imm 0x80000000)).wf = true ∧ Instr.hlt.wf = true := by decide

/-- UnpackedWordsArePackedWords: a word of P4 that unpacks, and one with opcode 7. -/
theorem witness_unpack :
    unpack 0x7FFFC0001FFFF0 = some (.mov (.mem 65535) (.mem 65535)) ∧ (7 : BitVec 71).extractLsb' 0 3 = 7 := by decide

/-- DecodedInstructionsAreWellFormed, StepRunsTheDecodedInstruction. -/
theorem witness_step_decoded :
    sample.fetchLine = some (ascii "MOV [65535], -9") ∧ decode (ascii "MOV [65535], -9") = .instr (.mov (.mem 65535) (.imm (-9))) := by
  decide

/-- TokensAreMaximalRuns: a token of a line, whitespace, a run of token bytes, a line with a first token. -/
theorem witness_tokens :
    ascii "AX," ∈ tokens (ascii " MOV AX, 7") ∧ isWhitespace 0x09 = true ∧ (ascii "MOV" ≠ [] ∧ ∀ b ∈ ascii "MOV", isWhitespace b = false) ∧
    tokens (ascii "HLT") = [ascii "HLT"] ∧ Opcode.hlt ≠ .unknown := by decide

/-- DecimalLiteralsAreSignedDigits, ClassifierOutcomes: both sides hold somewhere, at the ends of the ranges. -/
theorem witness_literals :
    decValue (ascii "-2147483648") = some (-2147483648) ∧ classify (ascii "-2147483648") = .ok (.imm 0x80000000) ∧
    decValue (ascii "65536") = some 65536 ∧ classify (ascii "[65536]") = .error .addressOutOfRange ∧
    classify (ascii "DX") = .ok (.reg .dx) := by decide

/-- OneTrailingCommaIsStripped: a token that ends in no comma. -/
theorem witness_no_comma : ∀ u : Token, ascii "AX" ≠ u ++ [0x2C] := by
  intro u h
  have := congrArg List.getLast? h
  rw [List.getLast?_concat] at this
  exact absurd this (by decide)

/-- OperandCountFaults: 0, 1 and 3 operand tokens of MOV, 1 of HLT. -/
theorem witness_operand_counts :
    tokens (ascii "MOV") = [ascii "MOV"] ∧ tokens (ascii "MOV AX") = [ascii "MOV", ascii "AX"] ∧
    tokens (ascii "MOV AX , 5") = [ascii "MOV", ascii "AX", ascii ",", ascii "5"] ∧
    tokens (ascii "HLT AX") = [ascii "HLT", ascii "AX"] ∧ ascii "MOV" = [0x4D, 0x4F, 0x56] ∧ ascii "HLT" = [0x48, 0x4C, 0x54] := by
  decide

/-- FirstFaultIsTheOneReported, and the error clauses of the encodings of the instruction statements: a line for each check. -/
theorem witness_first_fault :
    (tokens (ascii "FOO [70000]") = [ascii "FOO", ascii "[70000]"] ∧ Opcode.ofToken (ascii "FOO") = .unknown) ∧
    (tokens (ascii "MOV [70000]") = [ascii "MOV", ascii "[70000]"] ∧ (Opcode.ofToken (ascii "MOV")).arity = some 2) ∧
    (stripComma [ascii "[70000],", ascii "junk"] = [ascii "[70000]", ascii "junk"] ∧
      tokens (ascii "MOV [70000], junk") = [ascii "MOV", ascii "[70000],", ascii "junk"] ∧
      classify (ascii "[70000]") = .error .addressOutOfRange) ∧
    (stripComma [ascii "5,", ascii "[70000]"] = [ascii "5", ascii "[70000]"] ∧
      tokens (ascii "MOV 5, [70000]") = [ascii "MOV", ascii "5,", ascii "[70000]"] ∧ classify (ascii "5") = .ok (.imm 5)) ∧
    (stripComma [ascii "AX,", ascii "[70000]"] = [ascii "AX", ascii "[70000]"] ∧
      tokens (ascii "DIV AX, [70000]") = [ascii "DIV", ascii "AX,", ascii "[70000]"] ∧ classify (ascii "AX") = .ok (.reg .ax)) := by
  decide

/-- FirstFaultIsTheOneReported, the step: a fetched line that decoding faults, and a step that records a division by zero. -/
theorem witness_first_fault_step :
    (loadedWith ["MOV 5, AX"]).fetchLine = some (ascii "MOV 5, AX") ∧ decode (ascii "MOV 5, AX") = .fault .operandParse 1 ∧
    (loadedWith ["DIV AX, 0"]).fetchLine = some (ascii "DIV AX, 0") ∧
    (nextOf (step (loadedWith ["DIV AX, 0"]))).map (fun t => t.event.code) = some Event.divisionByZero.code := by decide

/-- DestinationRoundTrip, MovCopiesSourceToDestination: memories in canonical form, with words at both ends. -/
theorem witness_memory_wf : State.reset.mem.wf ∧ Memory.wf [(0, 1), (65535, 0x80000000)] := by decide

/-- The lines the encoding clauses of the instruction statements speak of. -/
theorem witness_encoding_lines :
    tokens (encode (.mov (.mem 1) (.imm 2))) = [0x4D, 0x4F, 0x56] :: [ascii "[1],", ascii "2"] ∧
    tokens (encode (.add (.mem 1) (.imm 2))) = [0x41, 0x44, 0x44] :: [ascii "[1],", ascii "2"] ∧
    tokens (encode (.sub (.mem 1) (.imm 2))) = [0x53, 0x55, 0x42] :: [ascii "[1],", ascii "2"] ∧
    tokens (encode (.mul (.mem 1) (.imm 2))) = [0x4D, 0x55, 0x4C] :: [ascii "[1],", ascii "2"] ∧
    tokens (encode (.div (.mem 1) (.imm 2))) = [0x44, 0x49, 0x56] :: [ascii "[1],", ascii "2"] := by decide

/-- DivWritesTruncatedQuotientOrReportsZero, DivisionOverflowsOnlyForMinByMinusOne: a divisor of each kind, and the overflowing pair. -/
theorem witness_divisors :
    resolveSource (.mem 7) State.reset = 0 ∧ resolveSource (.imm 2) State.reset ≠ 0 ∧
    ¬((resolveSource (.imm 7) State.reset).toInt = -2147483648 ∧ (resolveSource (.imm 2) State.reset).toInt = -1) ∧
    (resolveSource (.imm 0x80000000) State.reset).toInt = -2147483648 ∧ (resolveSource (.imm 0xFFFFFFFF) State.reset).toInt = -1 := by
  decide

/-- HltSetsTheHaltLatch: HLT without and with operand tokens, and a clear fault latch. -/
theorem witness_hlt :
    tokens (ascii "HLT") = [0x48, 0x4C, 0x54] :: [] ∧ tokens (ascii "HLT AX") = [0x48, 0x4C, 0x54] :: [ascii "AX"] ∧
    sample.faultFlag = false := by decide

/-- UnknownMnemonicIsReportedOnly. -/
theorem witness_unknown :
    tokens (ascii "mov AX, 1") = ascii "mov" :: [ascii "AX,", ascii "1"] ∧
    ascii "mov" ∉ [[0x4D, 0x4F, 0x56], [0x41, 0x44, 0x44], [0x53, 0x55, 0x42], [0x4D, 0x55, 0x4C], [0x44, 0x49, 0x56], [0x48, 0x4C, 0x54]] := by
  decide

/-- FetchReadsTheLineAtPc, HaltedStepChangesNothing: a Ready state and a Halted one. -/
theorem witness_run_states : sample.runState = .ready ∧ State.reset.runState = .halted := by decide

/-- StructuralErrorHaltsWithoutAWrite: both structural errors. -/
theorem witness_structural_errors :
    ((loadedWith ["ADD AX, [65536]"]).fetchLine = some (ascii "ADD AX, [65536]") ∧
      decode (ascii "ADD AX, [65536]") = .fault .addressOutOfRange 2) ∧
    ((loadedWith ["HLT AX"]).fetchLine = some (ascii "HLT AX") ∧ decode (ascii "HLT AX") = .fault .operandParse 1) := by decide

/-- StructuralErrorHaltsWithoutAWrite: a transaction that is neither RESET nor LOAD. -/
theorem witness_other_transaction : Transaction.run ≠ .reset ∧ ∀ lines, Transaction.run ≠ .load lines :=
  ⟨by decide, fun _ h => by cases h⟩

/-- The statements about a step that answers a next state: a Ready state whose step does, and a Halted one. -/
theorem witness_step_next :
    sample.runState = .ready ∧ (∃ t, step sample = .next t) ∧ State.reset.runState = .halted ∧ ∃ t, step State.reset = .next t :=
  ⟨by decide, ⟨_, rfl⟩, by decide, ⟨_, rfl⟩⟩

/-- EventDispositions, EventsAreRaisedByTheirLines: a step with each event, a line following. -/
theorem witness_each_event :
    (recordOf (loadedWith ["MOV AX, 1", "HLT"])).map (·.1) = some 0 ∧ (recordOf (loadedWith ["DIV 0, 0", "HLT"])).map (·.1) = some 1 ∧
    (recordOf (loadedWith ["NOP", "HLT"])).map (·.1) = some 2 ∧ (recordOf (loadedWith ["MOV", "HLT"])).map (·.1) = some 3 ∧
    (recordOf (loadedWith ["MUL AX, [-1]", "HLT"])).map (·.1) = some 4 ∧ 0 + 1 < (loadedWith ["NOP", "HLT"]).progLen := by decide

/-- StepsNeverWriteTheProgram: a step that leaves `pc` alone, and one that does not. -/
theorem witness_pc_kept : (nextOf (step State.reset)).map State.pc = some State.reset.pc ∧ (nextOf (step sample)).map State.pc = some 1 := by
  decide

/-- RegistersHaveTheirWriters: steps that change AX and another register. -/
theorem witness_register_change :
    (nextOf (step (loadedWith ["ADD 2, 3"]))).map (fun t => t.readReg .ax) = some 5 ∧ (loadedWith ["ADD 2, 3"]).readReg .ax = 0 ∧
    (nextOf (step (loadedWith ["MOV DX, 4"]))).map (fun t => t.readReg .dx) = some 4 ∧ (loadedWith ["MOV DX, 4"]).readReg .dx = 0 := by
  decide

/-- MemoryHasOneWriter: a step that changes a word and its modified bit, and a state with a modified bit set. -/
theorem witness_memory_change :
    (nextOf (step sample)).map (fun t => (t.memRead 65535, t.isModified 65535)) = some (0xFFFFFFF7, true) ∧
    sample.memRead 65535 = 0 ∧ sample.isModified 65535 = false := by decide

/-- RunStateTransitions: lines that do and do not end in Halted, an accepted line for LOAD, and a state that fetches. -/
theorem witness_transitions :
    (nextOf (step sample)).map State.runState = some .ready ∧ (nextOf (step (loadedWith ["HLT", "NOP"]))).map State.runState = some .halted ∧
    tokens (ascii "HLT") ≠ [] ∧ sample.fetchLine ≠ none := by decide

/-- The statements about legal states: a legal state in Ready, and one in Halted. -/
theorem witness_legal_states :
    sample.Inv Config.reference ∧ sample.runState = .ready ∧ (loadedWith []).Inv Config.reference ∧ (loadedWith []).runState = .halted :=
  ⟨loaded_from_reset_is_legal _ _ (by decide), by decide, loaded_from_reset_is_legal _ _ (by decide), by decide⟩

/-- StepKeepsTheInvariant, TransactionsKeepTheInvariant. -/
theorem witness_legal_step :
    sample.Inv Config.reference ∧ (∃ t, step sample = .next t) ∧ ∃ ans, transact Config.reference .run sample = .next ans :=
  ⟨witness_legal_states.1, ⟨_, rfl⟩, ⟨_, rfl⟩⟩

/-- LoadReplacesTheProgramOrIsRefused: programs at and just past both bounds. -/
theorem witness_load_bounds :
    ([ascii "HLT", ascii ""].filter fun l => decide (tokens l ≠ [])).length ≤ 1 ∧ (ascii "HLT").length ≤ 3 ∧
    1 < ([ascii "HLT", ascii "HLT"].filter fun l => decide (tokens l ≠ [])).length ∧
    tokens (ascii "HLT ") ≠ [] ∧ 3 < (ascii "HLT ").length := by decide

/-- RunEndsAtTheFirstStop: a legal state with clear latches for each way a run ends, at the boundary indices. -/
theorem witness_run_ends :
    (sample.Inv Config.reference ∧ sample.hltFlag = false ∧ sample.faultFlag = false) ∧
    (sample.prog[2]? = some (ascii "HLT") ∧ decode (ascii "HLT") = .instr .hlt ∧
      sample.prog[0]? = some (ascii "MOV [65535], -9") ∧ sample.prog[1]? = some (ascii "DIV AX, 0") ∧
      decode (ascii "DIV AX, 0") = .instr (.div (.reg .ax) (.imm 0))) ∧
    ((loadedWith ["HLT AX"]).Inv Config.reference ∧ (loadedWith ["HLT AX"]).prog[0]? = some (ascii "HLT AX") ∧
      decode (ascii "HLT AX") = .fault .operandParse 1) ∧
    ((loadedWith ["NOP"]).Inv Config.reference ∧ (loadedWith ["NOP"]).prog = [ascii "NOP"] ∧ decode (ascii "NOP") = .instr .unknown) :=
  ⟨⟨witness_legal_states.1, by decide, by decide⟩, by decide, ⟨loaded_from_reset_is_legal _ _ (by decide), by decide, by decide⟩,
    ⟨loaded_from_reset_is_legal _ _ (by decide), by decide, by decide⟩⟩

end Sys2Proof.Tests
end

section
/-! PROOFS. Tokens, mnemonics, decimal literals, operand counts, the trailing comma and the packed word (30_encoding.md R71 to R90). -/

namespace Sys2Proof

/-! ## The whitespace bytes and the tokens of a line (30_encoding.md R71, R72) -/

/-- The whitespace bytes are the six of R71. -/
theorem isWhitespace_iff_toNat_mem (b : Byte) :
    isWhitespace b = true ↔ b.toNat ∈ [0x09, 0x0A, 0x0B, 0x0C, 0x0D, 0x20] := by
  simp [isWhitespace, ← BitVec.toNat_inj, or_assoc]

/-- Only a non-empty token is put in front. -/
theorem mem_consToken {t u : Token} {ts : List Token} : t ∈ consToken u ts ↔ (t = u ∧ t ≠ []) ∨ t ∈ ts := by
  by_cases hu : u = []
  · simp [consToken, hu]
  · have hne : t = u → t ≠ [] := fun h => h ▸ hu
    simp only [consToken, if_neg hu, List.mem_cons, and_iff_left_of_imp hne]

/-- Putting a token in front leaves the later tokens alone. -/
theorem consToken_append (t : Token) (ts us : List Token) : consToken t (ts ++ us) = consToken t ts ++ us := by
  unfold consToken
  split <;> simp

/-- A token is a non-empty run of token bytes, the run the line opens with or a later one. -/
theorem tokens_are_tokenRuns {line : Line} {t : Token} (ht : t ∈ tokens line) :
    t ≠ [] ∧ ∀ b ∈ t, isWhitespace b = false := by
  obtain ⟨hfirst, hrest⟩ := splitTokens_ok line
  rcases mem_consToken.mp ht with ⟨rfl, hne⟩ | hmem
  · exact ⟨hne, hfirst⟩
  · exact hrest t hmem

/-- No token byte of the line is lost, added or moved. -/
theorem tokens_flatten (line : Line) : (tokens line).flatten = line.filter fun b => !isWhitespace b :=
  (consToken_flatten _ _).trans (splitTokens_flatten line)

/-- A whitespace byte separates the tokens before it from those after it. -/
theorem tokens_append_whitespace (l1 l2 : Line) {w : Byte} (hw : isWhitespace w = true) :
    tokens (l1 ++ w :: l2) = tokens l1 ++ tokens l2 := by
  rw [tokens, splitTokens_append_ws l1 l2 w hw, consToken_append]
  rfl

/-- A run of token bytes is not cut. -/
theorem tokens_of_tokenRun {t : Token} (hne : t ≠ []) (ht : ∀ b ∈ t, isWhitespace b = false) : tokens t = [t] := by
  have hsplit : splitTokens t = (t, []) := by simpa [splitTokens] using splitTokens_token_append t ht []
  simp [tokens, hsplit, consToken, hne]

/-! ## Mnemonics (30_encoding.md R76) -/

/-- Each of the six mnemonics is recognised. -/
theorem Opcode.ofToken_token {op : Opcode} (hop : op ≠ .unknown) : Opcode.ofToken op.token = op := by
  cases op with
  | unknown => exact absurd rfl hop
  | _ => rfl

/-- Only its own bytes are recognised as a mnemonic: each test of `Opcode.ofToken` is an equality. -/
theorem Opcode.eq_token_of_ofToken {t : Token} {op : Opcode} (hop : op ≠ .unknown) (h : Opcode.ofToken t = op) :
    t = op.token := by
  subst h
  unfold Opcode.ofToken at hop ⊢
  split_ifs at hop ⊢ with hmov hadd hsub hmul hdiv hhlt
  exacts [hmov, hadd, hsub, hmul, hdiv, hhlt, absurd rfl hop]

theorem Opcode.ofToken_eq_iff {t : Token} {op : Opcode} (hop : op ≠ .unknown) :
    Opcode.ofToken t = op ↔ t = op.token :=
  ⟨Opcode.eq_token_of_ofToken hop, fun h => h ▸ Opcode.ofToken_token hop⟩

/-- Settles O6, from one lemma for each clause: the token clauses go back to `splitTokens` and `consToken`, the last to `Opcode.ofToken`. -/
theorem tokensAreMaximalRuns : Obligations.TokensAreMaximalRuns :=
  ⟨isWhitespace_iff_toNat_mem,
    fun _ _ ht => tokens_are_tokenRuns ht,
    tokens_flatten,
    fun l1 l2 _ hw => tokens_append_whitespace l1 l2 hw,
    fun _ hne ht => tokens_of_tokenRun hne ht,
    fun _ _ _ h => (decode_of_tokens h).1,
    fun _ _ hop => Opcode.ofToken_eq_iff hop⟩

/-! ## Decimal literals (30_encoding.md R81) -/

/-- A sign byte is no digit, so an unsigned literal never opens with one. -/
theorem digits_sign_cons {b : Byte} (hb : b = 0x2B ∨ b = 0x2D) (bs : List Byte) : digits (b :: bs) = none := by
  rcases hb with rfl | rfl <;> rfl

/-- The three forms of a literal: `+` and digits, `-` and digits, digits alone. -/
theorem decValue_eq_some_iff (t : Token) (n : Int) :
    decValue t = some n ↔
      (digits t).map (signedValue false) = some n ∨
      (∃ bs, t = 0x2B :: bs ∧ (digits bs).map (signedValue false) = some n) ∨
      ∃ bs, t = 0x2D :: bs ∧ (digits bs).map (signedValue true) = some n := by
  cases t with
  | nil => simp [decValue, digits]
  | cons b bs =>
    by_cases hplus : b = 0x2B
    · simp [decValue, hplus, digits_sign_cons]
    · by_cases hminus : b = 0x2D
      · simp [decValue, hminus, digits_sign_cons]
      · simp only [decValue, List.cons.injEq, hplus, hminus, if_false, false_and, exists_false, or_false]

/-- A signed magnitude is read from the digit bytes of a digit list. -/
theorem digits_map_signedValue_iff (negative : Bool) (l : List Byte) (n : Int) :
    (digits l).map (signedValue negative) = some n ↔
      ∃ ds : List Nat, ds ≠ [] ∧ (∀ d ∈ ds, d < 10) ∧ l = ds.map (fun d => BitVec.ofNat 8 (0x30 + d)) ∧
        n = signedValue negative (Nat.ofDigits 10 ds.reverse) := by
  rw [Option.map_eq_some_iff]
  constructor
  · rintro ⟨m, hm, rfl⟩
    obtain ⟨ds, hne, hlt, hl, rfl⟩ := (digits_iff l m).mp hm
    exact ⟨ds, hne, hlt, hl, rfl⟩
  · rintro ⟨ds, hne, hlt, hl, rfl⟩
    exact ⟨_, (digits_iff l _).mpr ⟨ds, hne, hlt, hl, rfl⟩, rfl⟩

/-- Settles O8: the three forms of a literal, each read by `digits`. -/
theorem decimalLiteralsAreSignedDigits : Obligations.DecimalLiteralsAreSignedDigits := by
  intro t n
  simp only [decValue_eq_some_iff, digits_map_signedValue_iff]
  constructor
  · rintro (⟨ds, hne, hlt, ht, hn⟩ | ⟨_, rfl, ds, hne, hlt, rfl, hn⟩ | ⟨_, rfl, ds, hne, hlt, rfl, hn⟩)
    · exact ⟨ds, hne, hlt, .inl ⟨ht, hn⟩⟩
    · exact ⟨ds, hne, hlt, .inr (.inl ⟨rfl, hn⟩)⟩
    · exact ⟨ds, hne, hlt, .inr (.inr ⟨rfl, hn⟩)⟩
  · rintro ⟨ds, hne, hlt, ⟨ht, hn⟩ | ⟨ht, hn⟩ | ⟨ht, hn⟩⟩
    · exact .inl ⟨ds, hne, hlt, ht, hn⟩
    · exact .inr (.inl ⟨_, ht, ds, hne, hlt, rfl, hn⟩)
    · exact .inr (.inr ⟨_, ht, ds, hne, hlt, rfl, hn⟩)

/-! ## The operand count (30_encoding.md R78) -/

/-- Too few operand tokens: the fault names the first missing operand. -/
theorem decodeF2_of_length_lt_two (mk : Operand → Operand → Instr) (firstIsDest : Bool) {ops : List Token}
    (h : ops.length < 2) :
    decodeF2 mk firstIsDest ops = .fault .operandParse (BitVec.ofNat 2 (ops.length + 1)) := by
  match ops, h with
  | [], _ => rfl
  | [_], _ => rfl

/-- Too many operand tokens: the fault names the first surplus operand. -/
theorem decodeF2_of_two_lt_length (mk : Operand → Operand → Instr) (firstIsDest : Bool) {ops : List Token}
    (h : 2 < ops.length) : decodeF2 mk firstIsDest ops = .fault .operandParse 3 := by
  match ops, h with
  | _ :: _ :: _ :: _, _ => rfl

/-- Any operand token is surplus in format F0, and the first one is named. -/
theorem decodeF0_of_length_pos (i : Instr) {ops : List Token} (h : 0 < ops.length) :
    decodeF0 i ops = .fault .operandParse 1 := by
  match ops, h with
  | _ :: _, _ => rfl

/-- The mnemonics that take two operands are those decoded in format F2. -/
theorem decodeOperands_of_arity_two {op : Opcode} (h : op.arity = some 2) (ops : List Token) :
    ∃ mk firstIsDest, decodeOperands ops op = decodeF2 mk firstIsDest ops := by
  cases op with
  | hlt => simp [Opcode.arity] at h
  | unknown => simp [Opcode.arity] at h
  | _ => exact ⟨_, _, rfl⟩

/-- A line with a two-operand mnemonic is decoded in format F2, from as many operand tokens as it has. -/
theorem decode_of_arity_two {line : Line} {mnem : Token} {ops : List Token} (hline : tokens line = mnem :: ops)
    (harity : (Opcode.ofToken mnem).arity = some 2) :
    ∃ mk firstIsDest, decode line = decodeF2 mk firstIsDest (stripComma ops) := by
  rw [(decode_of_tokens hline).2]
  exact decodeOperands_of_arity_two harity _

/-- The mnemonics of R76 that take two operands. -/
theorem arity_of_twoOperandMnemonic {mnem : Token}
    (h : mnem ∈ [[0x4D, 0x4F, 0x56], [0x41, 0x44, 0x44], [0x53, 0x55, 0x42], [0x4D, 0x55, 0x4C], [0x44, 0x49, 0x56]]) :
    (Opcode.ofToken mnem).arity = some 2 := by
  simp only [List.mem_cons, List.not_mem_nil, or_false] at h
  rcases h with rfl | rfl | rfl | rfl | rfl <;> rfl

/-- Settles O11: the count is checked on the comma-stripped tokens, and stripping keeps their number. -/
theorem operandCountFaults : Obligations.OperandCountFaults := by
  intro line mnem ops hline
  refine ⟨fun hmnem => ?_, ?_⟩
  · obtain ⟨mk, firstIsDest, hdecode⟩ := decode_of_arity_two hline (arity_of_twoOperandMnemonic hmnem)
    rw [hdecode, ← stripComma_length ops]
    exact ⟨decodeF2_of_length_lt_two mk firstIsDest, decodeF2_of_two_lt_length mk firstIsDest⟩
  · rintro rfl hpos
    rw [(decode_of_tokens hline).2]
    exact decodeF0_of_length_pos .hlt (by rwa [stripComma_length])

/-! ## The trailing comma (30_encoding.md R75) -/

/-- A comma the first token ends in is removed, whatever stands before it, another comma included. -/
theorem stripComma_concat (t : Token) (ts : List Token) : stripComma ((t ++ [0x2C]) :: ts) = t :: ts := by
  simp [stripComma]

/-- Without a final comma the first token stays: a last byte that is a comma would be one. -/
theorem stripComma_of_no_comma {t : Token} (h : ∀ u, t ≠ u ++ [0x2C]) (ts : List Token) :
    stripComma (t :: ts) = t :: ts := by
  have hlast : t.getLast? ≠ some 0x2C := fun hlast => h _ (List.dropLast_append_getLast? _ hlast).symm
  rw [stripComma, if_neg hlast]

/-- Settles O10, by whether the first token ends in a comma. -/
theorem oneTrailingCommaIsStripped : Obligations.OneTrailingCommaIsStripped :=
  ⟨rfl, stripComma_concat, fun _ ts h => stripComma_of_no_comma h ts⟩

/-! ## The packed decoded word (30_encoding.md R89, R90) -/

/-- Code 7 is reserved. -/
theorem Opcode.code_ne_seven (op : Opcode) : op.code ≠ 7 := by
  cases op <;> decide

/-- A register's payload is its index, zero-extended. -/
theorem payload_reg_toNat (r : Reg) : (payload (some (.reg r))).toNat = r.index.toNat :=
  BitVec.toNat_setWidth_of_le (by decide)

/-- A memory operand's payload is its address, zero-extended. -/
theorem payload_mem_toNat (a : Addr) : (payload (some (.mem a))).toNat = a.toNat :=
  BitVec.toNat_setWidth_of_le (by decide)

/-- An immediate's payload is its two's complement: its value modulo `2 ^ 32`. -/
theorem payload_imm_toNat (v : Word) : ((payload (some (.imm v))).toNat : Int) = v.toInt % 4294967296 := by
  simp only [payload, BitVec.toInt_eq_toNat_cond]
  omega

/-- The five fields of a concatenation, lowest first: each is found above the widths of those below it. -/
theorem extractLsb'_fields_append (p2 : BitVec 32) (c2 : BitVec 2) (p1 : BitVec 32) (c1 : BitVec 2) (op : BitVec 3) :
    (p2 ++ c2 ++ p1 ++ c1 ++ op).extractLsb' 0 3 = op ∧
    (p2 ++ c2 ++ p1 ++ c1 ++ op).extractLsb' 3 2 = c1 ∧ (p2 ++ c2 ++ p1 ++ c1 ++ op).extractLsb' 5 32 = p1 ∧
    (p2 ++ c2 ++ p1 ++ c1 ++ op).extractLsb' 37 2 = c2 ∧ (p2 ++ c2 ++ p1 ++ c1 ++ op).extractLsb' 39 32 = p2 := by
  simp (disch := decide) only [BitVec.extractLsb'_append_eq_of_le, BitVec.extractLsb'_append_eq_right,
    BitVec.extractLsb'_eq_self, Nat.reduceSub, and_self, -Nat.reduceAdd]

/-- Where the packed word holds each part of the decoded record (R90). -/
theorem pack_fields (i : Instr) :
    (pack i).extractLsb' 0 3 = i.opcode.code ∧
    (pack i).extractLsb' 3 2 = classCode i.operands.1 ∧ (pack i).extractLsb' 5 32 = payload i.operands.1 ∧
    (pack i).extractLsb' 37 2 = classCode i.operands.2 ∧ (pack i).extractLsb' 39 32 = payload i.operands.2 :=
  extractLsb'_fields_append _ _ _ _ _

/-- Settles O4: the codes by evaluation, the payloads and the fields of a packed word by their lemmas. -/
theorem packedWordLayout : Obligations.PackedWordLayout :=
  ⟨⟨rfl, rfl, rfl, rfl, rfl, rfl, rfl, Opcode.code_ne_seven⟩,
    ⟨rfl, rfl, rfl, rfl⟩,
    ⟨rfl, rfl⟩,
    fun r => ⟨rfl, payload_reg_toNat r⟩,
    fun a => ⟨rfl, payload_mem_toNat a⟩,
    fun v => ⟨rfl, payload_imm_toNat v, rfl⟩,
    pack_fields⟩

end Sys2Proof
end

section
/-! PROOFS. The classifier's outcomes and what a source operand reads (40_operand_resolver.md R101, R105). -/

namespace Sys2Proof

/-! ## The spellings of an operand (30_encoding.md R82 to R84) -/

/-- The tokens that spell an operand: its name, its bracketed decimal address, its decimal value. -/
def Operand.IsSpelledBy : Operand → Token → Prop
  | .reg r, t => t = r.token
  | .mem a, t => ∃ s, t = 0x5B :: (s ++ [0x5D]) ∧ decValue s = some (a.toNat : Int)
  | .imm v, t => decValue t = some v.toInt

/-- A bracketed decimal that no address has as its value, whatever its magnitude (40_operand_resolver.md R101). -/
def IsAddressOutOfRange (t : Token) : Prop :=
  ∃ s n, t = 0x5B :: (s ++ [0x5D]) ∧ decValue s = some n ∧ (n < 0 ∨ 65535 < n)

/-- A bracketed token is no literal: a bracket is neither a digit nor a sign. -/
theorem decValue_bracketed (s : Token) : decValue (0x5B :: (s ++ [0x5D])) = none := rfl

/-- A register name is no literal: none opens with a digit or a sign. -/
theorem decValue_regToken (r : Reg) : decValue r.token = none := by
  cases r <;> rfl

theorem bracketInterior_of_decValue {t : Token} {n : Int} (h : decValue t = some n) : bracketInterior t = none := by
  refine Option.eq_none_iff_forall_ne_some.mpr fun s hs => ?_
  rw [(bracketInterior_iff t s).mp hs, decValue_bracketed] at h
  cases h

theorem regOfToken_of_decValue {t : Token} {n : Int} (h : decValue t = some n) : Reg.ofToken t = none := by
  refine Option.eq_none_iff_forall_ne_some.mpr fun r hr => ?_
  rw [(regOfToken_iff t r).mp hr, decValue_regToken] at h
  cases h

/-! ## The classifier (40_operand_resolver.md R101) -/

/-- Everything `classify` can answer, branch by branch: each test it makes is one of the spellings. -/
theorem classify_cases (t : Token) :
    (∃ d : Operand, d.IsSpelledBy t ∧ classify t = .ok d) ∨
    (IsAddressOutOfRange t ∧ classify t = .error .addressOutOfRange) ∨
    classify t = .error .operandParse := by
  unfold classify
  split
  · next s hs =>
    have ht := (bracketInterior_iff t s).mp hs
    split
    · exact .inr (.inr rfl)
    · next n hn =>
      split
      · next hout => exact .inr (.inl ⟨⟨s, n, ht, hn, hout⟩, rfl⟩)
      · next hin => exact .inl ⟨.mem _, ⟨s, ht, hn.trans (congrArg some (ofInt16 hin).symm)⟩, rfl⟩
  · split
    · next r hr => exact .inl ⟨.reg r, (regOfToken_iff t r).mp hr, rfl⟩
    · split
      · exact .inr (.inr rfl)
      · next n hn =>
        split
        · exact .inr (.inr rfl)
        · next hin => exact .inl ⟨.imm _, hn.trans (congrArg some (ofInt32 hin).symm), rfl⟩

theorem classify_regToken (r : Reg) : classify r.token = .ok (.reg r) := by
  cases r <;> rfl

/-- A bracketed address is read back: its value is in range. -/
theorem classify_of_bracketed_address {s : Token} {a : Addr} (hs : decValue s = some (a.toNat : Int)) :
    classify (0x5B :: (s ++ [0x5D])) = .ok (.mem a) := by
  have hin : ¬((a.toNat : Int) < 0 ∨ 65535 < (a.toNat : Int)) := by have := a.isLt; omega
  simp only [classify, (bracketInterior_iff _ s).mpr rfl, hs, if_neg hin, BitVec.ofInt_natCast, BitVec.ofNat_toNat,
    BitVec.setWidth_eq]

/-- A literal is read back: it has no brackets, is no register name, and its value is in range. -/
theorem classify_of_decValue {t : Token} {v : Word} (ht : decValue t = some v.toInt) : classify t = .ok (.imm v) := by
  have hin : ¬(v.toInt < -2147483648 ∨ 2147483647 < v.toInt) := by
    have hlt : v.toInt < 2147483648 := BitVec.toInt_lt
    have hle : -2147483648 ≤ v.toInt := BitVec.le_toInt v
    omega
  simp only [classify, bracketInterior_of_decValue ht, regOfToken_of_decValue ht, ht, if_neg hin, BitVec.ofInt_toInt]

/-- The operand that a token spells is the one it classifies as. -/
theorem classify_of_isSpelledBy {t : Token} {d : Operand} (h : d.IsSpelledBy t) : classify t = .ok d := by
  cases d with
  | reg r => exact (congrArg classify h).trans (classify_regToken r)
  | mem a =>
    obtain ⟨s, rfl, hs⟩ := h
    exact classify_of_bracketed_address hs
  | imm v => exact classify_of_decValue h

theorem classify_of_isAddressOutOfRange {t : Token} (h : IsAddressOutOfRange t) :
    classify t = .error .addressOutOfRange := by
  obtain ⟨s, n, rfl, hs, hout⟩ := h
  simp only [classify, (bracketInterior_iff _ s).mpr rfl, hs, if_pos hout]

theorem classify_eq_ok_iff (t : Token) (d : Operand) : classify t = .ok d ↔ d.IsSpelledBy t := by
  refine ⟨fun h => ?_, classify_of_isSpelledBy⟩
  rcases classify_cases t with ⟨d', hd', hok⟩ | ⟨-, herr⟩ | herr
  · exact Except.ok.inj (hok.symm.trans h) ▸ hd'
  · cases herr.symm.trans h
  · cases herr.symm.trans h

theorem classify_eq_addressOutOfRange_iff (t : Token) :
    classify t = .error .addressOutOfRange ↔ IsAddressOutOfRange t := by
  refine ⟨fun h => ?_, classify_of_isAddressOutOfRange⟩
  rcases classify_cases t with ⟨d, -, hok⟩ | ⟨hout, -⟩ | herr
  · cases hok.symm.trans h
  · exact hout
  · cases herr.symm.trans h

/-- A token that is no operand and no address out of range is malformed: `classify` has no other outcome. -/
theorem classify_eq_operandParse_iff (t : Token) :
    classify t = .error .operandParse ↔
      (∀ d, classify t ≠ .ok d) ∧ classify t ≠ .error .addressOutOfRange := by
  constructor
  · intro h
    simp [h]
  · rintro ⟨hok, haddr⟩
    rcases classify_cases t with ⟨d, -, hd⟩ | ⟨-, herr⟩ | herr
    · exact absurd hd (hok d)
    · exact absurd herr haddr
    · exact herr

/-- Settles O9: each operand class is one case of `Operand.IsSpelledBy`, and the two errors are the outcomes left. -/
theorem classifierOutcomes : Obligations.ClassifierOutcomes :=
  ⟨⟨rfl, rfl, rfl, rfl⟩,
    fun t r => classify_eq_ok_iff t (.reg r),
    fun t a => classify_eq_ok_iff t (.mem a),
    fun t v => classify_eq_ok_iff t (.imm v),
    classify_eq_addressOutOfRange_iff,
    classify_eq_operandParse_iff⟩

/-! ## Source operands (40_operand_resolver.md R105) -/

/-- Settles O14, by the equation of `resolveSource` for each operand class. -/
theorem resolveSourceReads : Obligations.ResolveSourceReads :=
  fun s => ⟨fun r => Machine.resolveSource_reg r s, fun a => Machine.resolveSource_mem a s,
    fun v => Machine.resolveSource_imm v s⟩

end Sys2Proof
end

section
/-! PROOFS. Fetch and the Halted step, LOAD, and the read-out ports (41_execution_engine.md R123, R127, R129 to R133). -/

namespace Sys2Proof.Machine

/-! ## FETCH and the step in Halted (41_execution_engine.md R123, R127) -/

/-- Whatever the fetched line is, an instruction or a structural error, its step advances `pc` and records the line at `pc`. -/
theorem step_ready_advances {s t : State} (hready : s.runState = .ready) (h : step s = .next t) :
    t.pc = s.pc + 1 ∧ t.event.pc = s.pc ∧ t.event.valid = true := by
  cases step_cases h with
  | halted hr ht => rw [hready] at hr; cases hr
  | instr line i hf hd hx =>
    obtain ⟨hpc, hevpc, hvalid, -⟩ := hx.fetched
    exact ⟨hpc, hevpc, hvalid⟩
  | fault line e k hf hd ht => subst ht; simp

/-- The event port is silent in Halted. -/
theorem eventPort_halted {s : State} (h : s.runState = .halted) : eventPort s = none := by
  simp [eventPort, h]

/-- Settles O29: the line is the one `fetchLine` reads, and every case of a Ready step advances past it. -/
theorem pcAdvancesOnEveryFetch : Obligations.PcAdvancesOnEveryFetch :=
  fun _ _ hready hstep => ⟨fetchLine_ready hready, step_ready_advances hready hstep⟩

/-- Settles O27, by what the step and the event port are in Halted. -/
theorem haltedStepChangesNothing : Obligations.HaltedStepChangesNothing :=
  fun _ hhalted => ⟨step_halted hhalted, eventPort_halted hhalted⟩

/-! ## LOAD (41_execution_engine.md R129, R130) -/

/-- The lines LOAD keeps, said with the tokens of R72: a line is blank when it has none. -/
theorem keptLines_eq_filter_tokens (lines : List Line) :
    keptLines lines = lines.filter fun l => decide (tokens l ≠ []) :=
  List.filter_congr fun l _ => by cases htokens : tokens l <;> simp [isBlank, htokens]

/-- LOAD refuses exactly past one of the two bounds, blank lines aside. -/
theorem loadRefuses_iff (p : Config.Params) (lines : List Line) :
    loadRefuses p lines = true ↔
      p.progMax < (keptLines lines).length ∨ ∃ l ∈ lines, tokens l ≠ [] ∧ p.lineMax < l.length := by
  simp [loadRefuses, mem_keptLines, and_assoc]

theorem load_of_accepted {p : Config.Params} {lines : List Line} (h : ¬loadRefuses p lines = true) (s : State) :
    s.load p lines = (.loadOk, s.loaded lines) :=
  if_neg h

theorem load_of_refused {p : Config.Params} {lines : List Line} (h : loadRefuses p lines = true) (s : State) :
    s.load p lines = (.loadRefused, s) :=
  if_pos h

/-- An accepted LOAD keeps registers, memory and modified bits. -/
theorem loaded_sameStorage (lines : List Line) (s : State) : s.SameStorage (s.loaded lines) :=
  ⟨loaded_readReg s lines, loaded_memRead s lines, loaded_isModified s lines⟩

/-- Settles O45: `loadRefuses` holds past a bound and nowhere else, and it alone decides which of its two answers LOAD gives. -/
theorem loadReplacesTheProgramOrIsRefused : Obligations.LoadReplacesTheProgramOrIsRefused := by
  intro p lines s
  rw [← keptLines_eq_filter_tokens]
  constructor
  · intro hprog hline
    have haccepted : ¬loadRefuses p lines = true := by
      rw [loadRefuses_iff]
      rintro (hlong | ⟨l, hl, htokens, hlong⟩)
      · exact absurd hprog (Nat.not_le.mpr hlong)
      · exact absurd (hline l hl htokens) (Nat.not_le.mpr hlong)
    refine ⟨s.loaded lines, ?_, loaded_prog s lines, loaded_pc s lines, loaded_hltFlag s lines, loaded_faultFlag s lines,
      loaded_event s lines, loaded_sameStorage lines s⟩
    simp only [transact, load_of_accepted haccepted]
  · intro hpast
    simp only [transact, load_of_refused ((loadRefuses_iff p lines).mpr hpast)]

/-! ## Read-out and REPORT (41_execution_engine.md R132, R133) -/

/-- A number below `MEM_SIZE` is the address it is read as. -/
theorem isModified_ofNat (s : State) {a : Nat} (ha : a < 65536) :
    s.isModified (BitVec.ofNat 16 a) = true ↔ a ∈ s.modified := by
  simp [State.isModified, Nat.mod_eq_of_lt ha]

theorem memRead_ofNat (s : State) {a : Nat} (ha : a < 65536) : s.memRead (BitVec.ofNat 16 a) = Memory.read a s.mem := by
  simp [State.memRead, Nat.mod_eq_of_lt ha]

/-- The modified set is the rising list of the addresses whose modified bit is set: two strictly rising lists with the same
members are equal. -/
theorem modified_eq_filter_range {s : State} (h : s.modified.wf) :
    s.modified = (List.range 65536).filter fun a => s.isModified (BitVec.ofNat 16 a) := by
  obtain ⟨hrising, hbound⟩ := h
  refine hrising.eq_of_mem_iff (List.pairwise_lt_range.filter _) fun a => ?_
  rw [List.mem_filter, List.mem_range]
  constructor
  · intro hmem
    have ha : a < 65536 := hbound a hmem
    exact ⟨ha, (isModified_ofNat s ha).mpr hmem⟩
  · rintro ⟨ha, hbit⟩
    exact (isModified_ofNat s ha).mp hbit

/-- Settles O48: a legal state holds its modified set in the order REPORT promises, every address in range. -/
theorem reportListsModifiedWordsInOrder : Obligations.ReportListsModifiedWordsInOrder := by
  intro p s hinv
  refine ⟨rfl, ?_⟩
  rw [← modified_eq_filter_range hinv.modified_wf]
  refine List.map_congr_left fun a hmem => ?_
  have ha : a < 65536 := hinv.modified_wf.2 a hmem
  rw [memRead_ofNat s ha]

/-- Settles O50: each read-out is its own branch of `transact`, which answers the state it was given. -/
theorem readOutChangesNothing : Obligations.ReadOutChangesNothing :=
  fun _ _ => ⟨fun _ => rfl, fun _ => rfl, fun _ => rfl, rfl, rfl⟩

end Sys2Proof.Machine
end

section
/-! PROOFS. Format F2 read clause by clause (30_encoding.md R74, R78, R79, R91), and MOV (42_data_movement.md R150). -/

namespace Sys2Proof

/-! ## What format F2 decodes to (30_encoding.md R74, R79, R91) -/

/-- Format F2 yields these two operands exactly from two tokens that classify as them, the first being admitted. -/
theorem decodeF2_eq_instr_iff {mk : Operand → Operand → Instr} (hmk : Function.Injective2 mk) (firstIsDest : Bool)
    (ops : List Token) (d1 d2 : Operand) :
    decodeF2 mk firstIsDest ops = .instr (mk d1 d2) ↔
      ∃ t1 t2, ops = [t1, t2] ∧ classify t1 = .ok d1 ∧ classify t2 = .ok d2 ∧
        (firstIsDest && !d1.isDestination) = false := by
  constructor
  · intro h
    obtain ⟨t1, t2, e1, e2, hops, h1, h2, hdest, hi⟩ := decodeF2_instr h
    obtain ⟨rfl, rfl⟩ := hmk hi
    exact ⟨t1, t2, hops, h1, h2, hdest⟩
  · rintro ⟨t1, t2, rfl, h1, h2, hdest⟩
    exact decodeF2_two h1 h2 hdest

/-- Any operand count but two is a parse error, whichever operand it names. -/
theorem decodeF2_of_length_ne_two (mk : Operand → Operand → Instr) (firstIsDest : Bool) {ops : List Token}
    (h : ops.length ≠ 2) : ∃ k, decodeF2 mk firstIsDest ops = .fault .operandParse k := by
  rcases Nat.lt_or_gt_of_ne h with hfew | hmany
  · exact ⟨_, decodeF2_of_length_lt_two mk firstIsDest hfew⟩
  · exact ⟨_, decodeF2_of_two_lt_length mk firstIsDest hmany⟩

/-- The first operand's error is reported whatever the second token is. -/
theorem decodeF2_first_error (mk : Operand → Operand → Instr) (firstIsDest : Bool) {t1 : Token} (t2 : Token)
    {e : StructuralError} (h1 : classify t1 = .error e) : decodeF2 mk firstIsDest [t1, t2] = .fault e 1 := by
  simp only [decodeF2, h1]

/-- An immediate destination is reported before the second operand is classified. -/
theorem decodeF2_first_not_admitted (mk : Operand → Operand → Instr) {firstIsDest : Bool} {t1 : Token} (t2 : Token)
    {d1 : Operand} (h1 : classify t1 = .ok d1) (hdest : (firstIsDest && !d1.isDestination) = true) :
    decodeF2 mk firstIsDest [t1, t2] = .fault .operandParse 1 := by
  simp only [decodeF2, h1, if_pos hdest]

/-- The second operand's error is reported once the first is admitted. -/
theorem decodeF2_second_error (mk : Operand → Operand → Instr) {firstIsDest : Bool} {t1 t2 : Token} {d1 : Operand}
    {e : StructuralError} (h1 : classify t1 = .ok d1) (hdest : (firstIsDest && !d1.isDestination) = false)
    (h2 : classify t2 = .error e) : decodeF2 mk firstIsDest [t1, t2] = .fault e 2 := by
  simp [decodeF2, h1, hdest, h2]

/-- A mnemonic that is decoded in format F2 has the encoding of that format, for the first operands it admits. -/
theorem f2Encoding_of_decodeF2 {mnem : Token} {op : Opcode} {mk : Operand → Operand → Instr} {firstIsDest : Bool}
    {admits : Operand → Prop} (hop : Opcode.ofToken mnem = op)
    (hformat : ∀ ops, decodeOperands ops op = decodeF2 mk firstIsDest ops) (hmk : Function.Injective2 mk)
    (hadmits : ∀ d, admits d ↔ (firstIsDest && !d.isDestination) = false) : Machine.F2Encoding mnem op mk admits := by
  intro line ops hline
  obtain ⟨hopcode, hdecode⟩ := decode_of_tokens hline
  rw [hop] at hopcode hdecode
  rw [hdecode, hformat]
  refine ⟨hopcode, fun d1 d2 => ?_, fun hcount => ?_, fun t1 t2 htokens => ?_⟩
  · rw [decodeF2_eq_instr_iff hmk, hadmits]
  · exact decodeF2_of_length_ne_two mk firstIsDest (by rwa [stripComma_length])
  · rw [htokens]
    refine ⟨fun e h1 => decodeF2_first_error mk firstIsDest t2 h1, fun d1 h1 hnot => ?_, fun d1 e h1 hadmitted h2 => ?_⟩
    · exact decodeF2_first_not_admitted mk t2 h1 (by simpa [hadmits] using hnot)
    · exact decodeF2_second_error mk h1 ((hadmits d1).mp hadmitted) h2

/-! ## The encoding of MOV (40_operand_resolver.md R107) -/

/-- The destinations are the operands that are no immediate. -/
theorem Operand.isDestination_iff (d : Operand) : d.isDestination = true ↔ ∀ v, d ≠ .imm v := by
  cases d <;> simp [Operand.isDestination]

theorem mov_f2Encoding : Machine.F2Encoding [0x4D, 0x4F, 0x56] .mov .mov (fun d => ∀ v, d ≠ .imm v) := by
  have hmk : Function.Injective2 Instr.mov := fun _ _ _ _ h => Instr.mov.inj h
  have hadmits : ∀ d : Operand, (∀ v, d ≠ .imm v) ↔ (true && !d.isDestination) = false := fun d => by
    rw [← d.isDestination_iff, Bool.true_and, Bool.not_eq_false']
  exact f2Encoding_of_decodeF2 rfl (fun _ => rfl) hmk hadmits

namespace Machine

/-! ## The effect of MOV (42_data_movement.md R150) -/

/-- MOV to a register: the source is read before the write, so a source that names the destination gives its old value. -/
theorem exec_mov_reg_effect (r : Reg) (src : Operand) (s : State) :
    ∃ t, exec (.mov (.reg r) src) s = .next t ∧
      t.readReg r = resolveSource src s ∧ (∀ q, q ≠ r → t.readReg q = s.readReg q) ∧ s.SameMemory t ∧ s.SameControl t ∧
      s.Recorded t .ok .mov 0 := by
  refine ⟨_, execMov_reg r src s, ?value, fun q hq => ?otherRegs, ⟨fun a => ?words, fun a => ?bits⟩, ?control, ?recorded⟩
  case value => simp
  case otherRegs => simp [readReg_writeReg_other _ _ r q hq]
  case words => simp
  case bits => simp
  case control => simp [State.SameControl]
  case recorded => simp [State.Recorded]

/-- MOV to a memory word: it sets the word's modified bit, and another address keeps both its word and its bit. -/
theorem exec_mov_mem_effect (a : Addr) (src : Operand) {s : State} (hmem : s.mem.wf) :
    ∃ t, exec (.mov (.mem a) src) s = .next t ∧
      t.memRead a = resolveSource src s ∧ t.isModified a = true ∧
      (∀ b, b ≠ a → t.memRead b = s.memRead b ∧ t.isModified b = s.isModified b) ∧ (∀ r, t.readReg r = s.readReg r) ∧
      s.SameControl t ∧ s.Recorded t .ok .mov 0 := by
  refine ⟨_, execMov_mem a src s, ?value, ?bit, fun b hb => ⟨?otherWords, ?otherBits⟩, fun r => ?regs, ?control, ?recorded⟩
  case value => exact memRead_memWrite_same s.advancePc a _ hmem
  case bit => simp
  case otherWords => simp [memRead_memWrite_other _ a b _ hb]
  case otherBits => simp [isModified_memWrite_other _ a b _ hb]
  case regs => simp
  case control => simp [State.SameControl]
  case recorded => simp [State.Recorded]

/-- Settles O16: format F2 with a destination first, and the effect of the write for each destination class. -/
theorem movCopiesSourceToDestination : Obligations.MovCopiesSourceToDestination :=
  ⟨mov_f2Encoding, rfl, exec_mov_reg_effect, fun a src _ hmem => exec_mov_mem_effect a src hmem⟩

end Machine

end Sys2Proof
end

section
/-! PROOFS. ADD, SUB, MUL and DIV: wrapping, rounding toward zero, and what an arithmetic step writes and keeps (43_arithmetic.md R160 to R166). -/

namespace Sys2Proof

/-! ## The encoding of the arithmetic instructions (30_encoding.md R79) -/

/-- A two-operand mnemonic whose first operand is a source admits every operand class there. -/
theorem f2Encoding_of_sources {mnem : Token} {op : Opcode} {mk : Operand → Operand → Instr} (hop : Opcode.ofToken mnem = op)
    (hformat : ∀ ops, decodeOperands ops op = decodeF2 mk false ops) (hmk : Function.Injective2 mk) :
    Machine.F2Encoding mnem op mk (fun _ => True) :=
  f2Encoding_of_decodeF2 hop hformat hmk fun d => by rw [Bool.false_and, eq_self]

theorem add_f2Encoding : Machine.F2Encoding [0x41, 0x44, 0x44] .add .add (fun _ => True) :=
  f2Encoding_of_sources rfl (fun _ => rfl) fun _ _ _ _ h => Instr.add.inj h

theorem sub_f2Encoding : Machine.F2Encoding [0x53, 0x55, 0x42] .sub .sub (fun _ => True) :=
  f2Encoding_of_sources rfl (fun _ => rfl) fun _ _ _ _ h => Instr.sub.inj h

theorem mul_f2Encoding : Machine.F2Encoding [0x4D, 0x55, 0x4C] .mul .mul (fun _ => True) :=
  f2Encoding_of_sources rfl (fun _ => rfl) fun _ _ _ _ h => Instr.mul.inj h

theorem div_f2Encoding : Machine.F2Encoding [0x44, 0x49, 0x56] .div .div (fun _ => True) :=
  f2Encoding_of_sources rfl (fun _ => rfl) fun _ _ _ _ h => Instr.div.inj h

namespace Machine

/-! ## Words and wrapping (00_scope.md R7, R9) -/

/-- The range of `Word`, `MIN` to `MAX`. -/
theorem word_toInt_range (w : Word) : -2147483648 ≤ w.toInt ∧ w.toInt ≤ 2147483647 := by
  have hlo : -2147483648 ≤ w.toInt := BitVec.le_toInt w
  have hhi : w.toInt < 2147483648 := BitVec.toInt_lt
  omega

/-- A word other than 0 has a value other than 0. -/
theorem word_toInt_ne_zero {w : Word} (h : w ≠ 0) : w.toInt ≠ 0 :=
  fun hvalue => h (BitVec.eq_of_toInt_eq (hvalue.trans BitVec.toInt_zero.symm))

/-- The model's `wrap_W` is the spec's. -/
theorem wrapW_isWrap (n : Int) : IsWrap (wrapW n) n := by
  obtain ⟨hlo, hhi⟩ := word_toInt_range (wrapW n)
  have hcong : (wrapW n).toInt % 4294967296 = n % 4294967296 := by
    rw [wrapW, BitVec.toInt_ofInt]
    exact Int.bmod_emod
  exact ⟨hlo, hhi, Int.emod_eq_zero_of_dvd (Int.ModEq.dvd hcong.symm)⟩

/-- Wrapping a number of the range of `Word` is exact. -/
theorem IsWrap.toInt_eq {w : Word} {n : Int} (h : IsWrap w n) (hlo : -2147483648 ≤ n) (hhi : n ≤ 2147483647) : w.toInt = n := by
  obtain ⟨hwlo, hwhi, hcong⟩ := h
  omega

/-- The number just above the range of `Word` wraps to `MIN`. -/
theorem IsWrap.toInt_eq_min {w : Word} (h : IsWrap w 2147483648) : w.toInt = -2147483648 := by
  obtain ⟨hwlo, hwhi, hcong⟩ := h
  omega

/-! ## The truncated quotient (43_arithmetic.md R166) -/

/-- The remainder that goes with the rounding toward zero is `Int.tmod`, which takes the dividend's sign. -/
theorem truncDiv_isTruncatedQuotient (a : Int) {b : Int} (hb : b ≠ 0) : IsTruncatedQuotient a b (truncDiv a b) := by
  refine ⟨a.tmod b, (Int.tdiv_mul_add_tmod a b).symm, ?smaller, Int.tmod_nonneg b, fun ha => ?sign⟩
  case smaller =>
    rw [Int.natAbs_tmod]
    exact Nat.mod_lt _ (Int.natAbs_pos.mpr hb)
  case sign =>
    have hneg : 0 ≤ (-a).tmod b := Int.tmod_nonneg b (by omega)
    rw [Int.neg_tmod] at hneg
    omega

/-- A divisor of magnitude 2 or more at least halves the magnitude, and 1 keeps the dividend: only `MIN / -1` leaves the range. -/
theorem truncDiv_range {a b : Int} (ha : -2147483648 ≤ a ∧ a ≤ 2147483647) (hb : b ≠ 0)
    (hover : ¬(a = -2147483648 ∧ b = -1)) : -2147483648 ≤ truncDiv a b ∧ truncDiv a b ≤ 2147483647 := by
  rcases (by omega : b = 1 ∨ b = -1 ∨ 2 ≤ b.natAbs) with rfl | rfl | hbig
  · rw [truncDiv, Int.tdiv_one]
    exact ha
  · rw [truncDiv, Int.tdiv_neg, Int.tdiv_one]
    omega
  · have hhalf : (truncDiv a b).natAbs ≤ a.natAbs / 2 := by
      rw [truncDiv, Int.natAbs_tdiv]
      exact Nat.div_le_div_left hbig (by decide)
    omega

/-! ## The effect of the arithmetic instructions (43_arithmetic.md R160 to R164) -/

/-- What the accumulator write leaves: AX holds the wrapped result, the step is recorded, and nothing else changes. -/
theorem writeAccumulator_effect (op : Opcode) (n : Int) (s : State) :
    IsWrap ((writeAccumulator op n s).readReg .ax) n ∧
      (∀ q, q ≠ .ax → (writeAccumulator op n s).readReg q = s.readReg q) ∧ s.SameMemory (writeAccumulator op n s) ∧
      s.SameControl (writeAccumulator op n s) ∧ s.Recorded (writeAccumulator op n s) .ok op 0 :=
  ⟨wrapW_isWrap n, writeAccumulator_readReg_other s op n,
    ⟨writeAccumulator_memRead s op n, writeAccumulator_isModified s op n⟩,
    ⟨writeAccumulator_prog s op n, writeAccumulator_hltFlag s op n, writeAccumulator_faultFlag s op n⟩,
    ⟨writeAccumulator_pc s op n, writeAccumulator_event s op n⟩⟩

/-- DIV by a nonzero word: AX gets the wrapped truncated quotient. -/
theorem exec_div_nonzero_effect (d1 : Operand) {d2 : Operand} {s : State} (h : resolveSource d2 s ≠ 0) :
    ∃ t, exec (.div d1 d2) s = .next t ∧
      IsWrap (t.readReg .ax) (truncDiv (resolveSource d1 s).toInt (resolveSource d2 s).toInt) ∧
      (∀ r, r ≠ .ax → t.readReg r = s.readReg r) ∧ s.SameMemory t ∧ s.SameControl t ∧ s.Recorded t .ok .div 0 :=
  ⟨_, execDiv_nonzero h, writeAccumulator_effect .div _ s⟩

/-- DIV by zero: the event names operand 2, and only `pc` and the record change. -/
theorem exec_div_zero_effect (d1 : Operand) {d2 : Operand} {s : State} (h : resolveSource d2 s = 0) :
    ∃ t, exec (.div d1 d2) s = .next t ∧ s.SameStorage t ∧ s.SameControl t ∧ s.Recorded t .divisionByZero .div 2 := by
  refine ⟨_, execDiv_zero h, ⟨fun r => ?regs, fun a => ?words, fun a => ?bits⟩, ?control, ?recorded⟩
  case regs => simp
  case words => simp
  case bits => simp
  case control => simp [State.SameControl]
  case recorded => simp [State.Recorded]

/-! ## The statements -/

/-- Settles O17: format F2 with a source first, and the accumulator write of the sum. -/
theorem addWritesWrappedSumToAx : Obligations.AddWritesWrappedSumToAx :=
  ⟨add_f2Encoding, rfl, fun _ _ s => ⟨_, rfl, writeAccumulator_effect .add _ s⟩⟩

/-- Settles O18: format F2 with a source first, and the accumulator write of the difference. -/
theorem subWritesWrappedDifferenceToAx : Obligations.SubWritesWrappedDifferenceToAx :=
  ⟨sub_f2Encoding, rfl, fun _ _ s => ⟨_, rfl, writeAccumulator_effect .sub _ s⟩⟩

/-- Settles O19: format F2 with a source first, and the accumulator write of the product. -/
theorem mulWritesWrappedProductToAx : Obligations.MulWritesWrappedProductToAx :=
  ⟨mul_f2Encoding, rfl, fun _ _ s => ⟨_, rfl, writeAccumulator_effect .mul _ s⟩⟩

/-- Settles O20: format F2 with a source first, and the effect for each kind of divisor. -/
theorem divWritesTruncatedQuotientOrReportsZero : Obligations.DivWritesTruncatedQuotientOrReportsZero := by
  refine ⟨div_f2Encoding, rfl, fun d1 d2 s hnonzero => ?_, fun d1 d2 s hzero => exec_div_zero_effect d1 hzero⟩
  obtain ⟨t, hexec, heffect⟩ := exec_div_nonzero_effect d1 hnonzero
  exact ⟨t, _, hexec, truncDiv_isTruncatedQuotient _ (word_toInt_ne_zero hnonzero), heffect⟩

/-- Settles O21: the wrap of the quotient is exact where the quotient is in range, and `MIN / -1` is the one number past it. -/
theorem divisionOverflowsOnlyForMinByMinusOne : Obligations.DivisionOverflowsOnlyForMinByMinusOne := by
  intro d1 d2 s
  by_cases hdivisor : resolveSource d2 s = 0
  · obtain ⟨t, hexec, ⟨hregs, hmemory⟩, hcontrol, hpc, hevent⟩ := exec_div_zero_effect d1 hdivisor
    refine ⟨t, hexec, hpc, fun r _ => hregs r, hmemory, hcontrol, fun _ => ⟨hregs .ax, by rw [hevent]⟩,
      fun hnonzero => absurd hdivisor hnonzero, fun _ hminusOne => ?_⟩
    simp [hdivisor] at hminusOne
  · obtain ⟨t, hexec, hwrap, hregs, hmemory, hcontrol, hpc, -⟩ := exec_div_nonzero_effect d1 hdivisor
    have hvalue := word_toInt_ne_zero hdivisor
    refine ⟨t, hexec, hpc, hregs, hmemory, hcontrol, fun hzero => absurd hzero hdivisor, fun _ hover => ?inRange,
      fun hmin hminusOne => ?overflow⟩
    case inRange =>
      obtain ⟨hlo, hhi⟩ := truncDiv_range (word_toInt_range (resolveSource d1 s)) hvalue hover
      rw [hwrap.toInt_eq hlo hhi]
      exact truncDiv_isTruncatedQuotient _ hvalue
    case overflow =>
      rw [hmin, hminusOne] at hwrap
      exact hwrap.toInt_eq_min

end Machine

end Sys2Proof
end

section
/-! PROOFS. HLT and an unknown mnemonic: how their lines decode, and what they set, record and keep (44_control.md R180, R181). -/

namespace Sys2Proof

/-! ## The encoding of HLT (30_encoding.md R78) -/

/-- HLT is decoded in format F0. -/
theorem decode_of_hlt {line : Line} {ops : List Token} (hline : tokens line = Opcode.hlt.token :: ops) :
    lineOpcode line = .hlt ∧ decode line = decodeF0 .hlt (stripComma ops) :=
  decode_of_tokens hline

/-! ## The lines of an unknown mnemonic (30_encoding.md R76, R77) -/

/-- The six mnemonics are the tokens of the opcodes other than UNKNOWN. -/
theorem Opcode.token_mem_mnemonics {op : Opcode} (hop : op ≠ .unknown) :
    op.token ∈ [[0x4D, 0x4F, 0x56], [0x41, 0x44, 0x44], [0x53, 0x55, 0x42], [0x4D, 0x55, 0x4C], [0x44, 0x49, 0x56],
      [0x48, 0x4C, 0x54]] := by
  cases op with
  | unknown => exact absurd rfl hop
  | _ => simp [Opcode.token]

/-- A token that is none of the six mnemonics is UNKNOWN: any other opcode would have that token for its own. -/
theorem Opcode.ofToken_eq_unknown {t : Token}
    (ht : t ∉ [[0x4D, 0x4F, 0x56], [0x41, 0x44, 0x44], [0x53, 0x55, 0x42], [0x4D, 0x55, 0x4C], [0x44, 0x49, 0x56],
      [0x48, 0x4C, 0x54]]) :
    Opcode.ofToken t = .unknown := by
  by_contra hknown
  have htoken : t = (Opcode.ofToken t).token := Opcode.eq_token_of_ofToken hknown rfl
  exact ht (htoken ▸ Opcode.token_mem_mnemonics hknown)

/-- The operand tokens of an unknown mnemonic are not looked at. -/
theorem decode_of_unknown {line : Line} {mnem : Token} {ops : List Token} (hline : tokens line = mnem :: ops)
    (hmnem : Opcode.ofToken mnem = .unknown) : lineOpcode line = .unknown ∧ decode line = .instr .unknown := by
  have hdecode := decode_of_tokens hline
  rwa [hmnem] at hdecode

namespace Machine

/-! ## The effect of HLT and of an unknown mnemonic (44_control.md R180, R181) -/

/-- The halt latch leaves the block Halted; the reason is HLT unless the fault latch, which has priority, is set (10_state.md R30). -/
theorem hltFlag_halts {s : State} (h : s.hltFlag = true) :
    s.runState = .halted ∧ (s.faultFlag = false → s.haltReason = .hlt) := by
  have hhalted : s.runState = .halted := (runState_halted_iff s).mpr (.inl h)
  exact ⟨hhalted, fun hfault => by simp [State.haltReason, hhalted, hfault, h]⟩

/-- HLT sets its latch; besides that only `pc` and the record change. -/
theorem exec_hlt_effect (s : State) :
    ∃ t, exec .hlt s = .next t ∧ t.hltFlag = true ∧ s.SameStorage t ∧ t.prog = s.prog ∧ t.faultFlag = s.faultFlag ∧
      s.Recorded t .ok .hlt 0 := by
  refine ⟨_, rfl, rfl, ⟨fun r => ?regs, fun a => ?words, fun a => ?bits⟩, rfl, rfl, ?recorded⟩
  case regs => simp
  case words => simp
  case bits => simp
  case recorded => simp [State.Recorded]

/-- An unknown mnemonic is recorded; besides that only `pc` changes. -/
theorem exec_unknown_effect (s : State) :
    ∃ t, exec .unknown s = .next t ∧ s.SameStorage t ∧ s.SameControl t ∧ s.Recorded t .unknownInstruction .unknown 0 := by
  refine ⟨_, rfl, ⟨fun r => ?regs, fun a => ?words, fun a => ?bits⟩, ?control, ?recorded⟩
  case regs => simp
  case words => simp
  case bits => simp
  case control => simp [State.SameControl]
  case recorded => simp [State.Recorded]

/-! ## The statements -/

/-- Settles O22: format F0, the frame of `exec`, and what a set halt latch means for the run state. -/
theorem hltSetsTheHaltLatch : Obligations.HltSetsTheHaltLatch := by
  refine ⟨fun line ops hline => ?encoding, rfl, fun s => ?effect⟩
  case encoding =>
    obtain ⟨hopcode, hdecode⟩ := decode_of_hlt hline
    refine ⟨hopcode, fun hnone => ?noOperand, fun hsome => ?surplus⟩
    case noOperand => rw [hdecode, hnone]; rfl
    case surplus =>
      rw [hdecode]
      exact decodeF0_of_length_pos .hlt (by rw [stripComma_length]; exact List.length_pos_of_ne_nil hsome)
  case effect =>
    obtain ⟨t, hexec, hlatch, hstorage, hprog, hfault, hrecorded⟩ := exec_hlt_effect s
    obtain ⟨hhalted, hreason⟩ := hltFlag_halts hlatch
    exact ⟨t, hexec, hlatch, hhalted, fun hclear => hreason (hfault.trans hclear), hstorage, hprog, hfault, hrecorded⟩

/-- Settles O23: a token that is none of the six is UNKNOWN, whose operands the decoder drops, and the frame of `exec`. -/
theorem unknownMnemonicIsReportedOnly : Obligations.UnknownMnemonicIsReportedOnly :=
  ⟨fun _ _ _ hline hmnem => decode_of_unknown hline (Opcode.ofToken_eq_unknown hmnem), rfl, exec_unknown_effect⟩

end Machine

end Sys2Proof
end

section
/-! PROOFS. The events: the order of a line's checks, the structural error's halt, and what each event leaves (60_exceptions.md R203 to R205). -/

namespace Sys2Proof

/-! ## The order of the decoder's checks (60_exceptions.md R205) -/

/-- A mnemonic that counts its operands reports a wrong count before it classifies any of them. -/
theorem decodeOperands_of_count_ne_arity {op : Opcode} {ops : List Token} {n : Nat} (harity : op.arity = some n)
    (hcount : ops.length ≠ n) : ∃ k, decodeOperands ops op = .fault .operandParse k := by
  cases op with
  | hlt =>
    obtain rfl : 0 = n := Option.some.inj harity
    exact ⟨1, decodeF0_of_length_pos .hlt (Nat.pos_of_ne_zero hcount)⟩
  | unknown => cases harity
  | _ =>
    obtain rfl : 2 = n := Option.some.inj harity
    exact decodeF2_of_length_ne_two _ _ hcount

/-- Of the mnemonics decoded in format F2, MOV alone requires its first operand to be a destination (30_encoding.md R79). -/
theorem decode_of_arity_two_role {line : Line} {mnem : Token} {ops : List Token} (hline : tokens line = mnem :: ops)
    (harity : (Opcode.ofToken mnem).arity = some 2) :
    ∃ mk, decode line = decodeF2 mk (decide (Opcode.ofToken mnem = .mov)) (stripComma ops) := by
  rw [(decode_of_tokens hline).2]
  cases hop : Opcode.ofToken mnem with
  | hlt => simp [hop, Opcode.arity] at harity
  | unknown => simp [hop, Opcode.arity] at harity
  | _ => exact ⟨_, rfl⟩

namespace Machine

/-- Of the executed instructions only DIV records a division by zero, and only when its divisor reads 0. -/
theorem ExecCase.div_of_divisionByZero {i : Instr} {s t : State} (h : ExecCase i s t)
    (hcode : t.event.code = Event.divisionByZero.code) : ∃ d1 d2, i = .div d1 d2 ∧ resolveSource d2 s = 0 := by
  cases h with
  | divZero d1 d2 hi h0 _ => exact ⟨d1, d2, hi, h0⟩
  | movReg _ _ _ ht => subst ht; simp at hcode
  | movMem _ _ _ ht => subst ht; simp at hcode
  | movImm _ _ _ ht => subst ht; simp [eventOfError] at hcode
  | arith _ _ _ _ _ ht => subst ht; simp at hcode
  | hlt _ ht => subst ht; simp at hcode
  | unknown _ ht => subst ht; simp at hcode

/-- The events of the structural errors are the two of R202. -/
theorem eventOfError_cases (e : StructuralError) :
    eventOfError e = .operandParseError ∨ eventOfError e = .addressOutOfRange := by
  cases e with
  | operandParse => exact .inl rfl
  | addressOutOfRange => exact .inr rfl

theorem eventOfError_ne_divisionByZero (e : StructuralError) : eventOfError e ≠ .divisionByZero := by
  rcases eventOfError_cases e with h | h <;> simp [h]

/-- A step that records a division by zero found no fault in decoding: its line is a DIV whose divisor reads 0. -/
theorem step_divisionByZero {s t : State} {line : Line} (hfetch : s.fetchLine = some line) (hstep : step s = .next t)
    (hcode : t.event.code = Event.divisionByZero.code) :
    ∃ d1 d2, decode line = .instr (.div d1 d2) ∧ resolveSource d2 s = 0 := by
  cases step_cases hstep with
  | halted hr _ => simp [fetchLine_halted hr] at hfetch
  | instr line' i hf hd hx =>
    obtain rfl : line' = line := Option.some.inj (hf.symm.trans hfetch)
    obtain ⟨d1, d2, rfl, hzero⟩ := hx.div_of_divisionByZero hcode
    exact ⟨d1, d2, hd, hzero⟩
  | fault _ e _ _ _ ht =>
    subst ht
    exact absurd ((event_code_inj _ _).mp hcode) (eventOfError_ne_divisionByZero e)

/-! ## The structural error (60_exceptions.md R204; 40_operand_resolver.md R109) -/

/-- A structural error writes no register, no memory word and no modified bit. -/
theorem takeStructuralError_sameStorage (op : Opcode) (e : StructuralError) (k : BitVec 2) (s : State) :
    s.SameStorage (s.takeStructuralError op e k) :=
  ⟨takeStructuralError_readReg s op e k, takeStructuralError_memRead s op e k, takeStructuralError_isModified s op e k⟩

theorem takeStructuralError_recorded (op : Opcode) (e : StructuralError) (k : BitVec 2) (s : State) :
    s.Recorded (s.takeStructuralError op e k) (eventOfError e) op k :=
  ⟨rfl, rfl⟩

theorem takeStructuralError_halts (op : Opcode) (e : StructuralError) (k : BitVec 2) (s : State) :
    (s.takeStructuralError op e k).runState = .halted ∧ (s.takeStructuralError op e k).haltReason = .fault :=
  faultFlag_halts rfl

/-- No transaction but RESET and LOAD moves a Halted block: a step and a run take no step, and the others only read. -/
theorem transact_of_halted (p : Config.Params) {tr : Transaction} {s : State} (hhalted : s.runState = .halted)
    (hreset : tr ≠ .reset) (hload : ∀ lines, tr ≠ .load lines) : ∃ ans, transact p tr s = .next ans ∧ ans.state = s := by
  cases tr with
  | reset => exact absurd rfl hreset
  | load lines => exact absurd rfl (hload lines)
  | step => exact ⟨_, by rw [transact, step_halted hhalted, answerOf], rfl⟩
  | run => exact ⟨_, by rw [transact, State.run, (runSteps_halted _ hhalted).1, answerOf], rfl⟩
  | _ => exact ⟨_, rfl, rfl⟩

/-! ## What each event leaves (60_exceptions.md R203) -/

/-- The three dispositions of R203: how a step from `s` that recorded its event in `t` goes on. -/
inductive Disposition (s t : State) : Prop where
  /-- The line completed; `hlt_flag` is set by HLT alone. -/
  | completed (hcode : t.event.code = Event.ok.code) (hlatch : t.hltFlag = true ↔ t.event.op = Opcode.hlt.code)
      (hfault : t.faultFlag = false)
  /-- A recoverable event: only `pc` and the record have changed. -/
  | recoverable (e : Event) (he : e = .divisionByZero ∨ e = .unknownInstruction) (hcode : t.event.code = e.code)
      (hstorage : s.SameStorage t) (hcontrol : s.SameControl t)
  /-- A structural error: nothing is written, and `fault_flag` is set. -/
  | structural (op : Opcode) (e : StructuralError) (k : BitVec 2) (ht : t = s.takeStructuralError op e k)

/-- Advancing `pc` and recording an event touches no storage. -/
theorem advancePc_emit_sameStorage (e : Event) (i : Nat) (op : Opcode) (k : BitVec 2) (s : State) :
    s.SameStorage (s.advancePc.emit e i op k) :=
  ⟨fun r => by simp, fun a => by simp, fun a => by simp⟩

/-- An instruction executed with both latches clear leaves one of the three dispositions. -/
theorem ExecCase.disposition {i : Instr} {s t : State} (h : ExecCase i s t) (hhlt : s.hltFlag = false)
    (hfault : s.faultFlag = false) : Disposition s t := by
  cases h with
  | movReg r d _ ht => subst ht; exact .completed rfl (by simp [hhlt]) (by simp [hfault])
  | movMem a d _ ht => subst ht; exact .completed rfl (by simp [hhlt]) (by simp [hfault])
  | movImm v d _ ht => exact .structural .mov .operandParse 1 ht
  | arith op n hop _ _ ht =>
    have hne : op ≠ .hlt := by rintro rfl; simp at hop
    subst ht
    exact .completed rfl (by simp [hhlt, hne]) (by simp [hfault])
  | divZero d1 d2 _ _ ht =>
    subst ht; exact .recoverable .divisionByZero (.inl rfl) rfl (advancePc_emit_sameStorage ..) ⟨rfl, rfl, rfl⟩
  | hlt _ ht => subst ht; exact .completed rfl (by simp) (by simp [hfault])
  | unknown _ ht =>
    subst ht; exact .recoverable .unknownInstruction (.inr rfl) rfl (advancePc_emit_sameStorage ..) ⟨rfl, rfl, rfl⟩

/-- Every step in Ready leaves one of the three dispositions. -/
theorem step_ready_disposition {s t : State} (hready : s.runState = .ready) (hstep : step s = .next t) :
    Disposition s t := by
  cases step_cases hstep with
  | halted hr _ => rw [hready] at hr; cases hr
  | instr _ _ _ _ hx =>
    obtain ⟨hhlt, hfault, -⟩ := (runState_ready_iff s).mp hready
    exact hx.disposition hhlt hfault
  | fault line e k _ _ ht => exact .structural (lineOpcode line) e k ht

/-- A step in Ready keeps the program store. -/
theorem step_ready_prog {s t : State} (hready : s.runState = .ready) (hstep : step s = .next t) : t.prog = s.prog := by
  cases step_cases hstep with
  | halted hr _ => rw [hready] at hr; cases hr
  | instr _ _ _ _ hx =>
    obtain ⟨-, -, -, hprog⟩ := hx.fetched
    exact hprog
  | fault _ _ _ _ _ ht => subst ht; rfl

/-- FAULT is the reason only while `fault_flag` is set. -/
theorem haltReason_ne_fault {s : State} (h : s.faultFlag = false) : s.haltReason ≠ .fault := by
  cases hrun : s.runState with
  | ready => simp [State.haltReason, hrun]
  | halted => cases hhlt : s.hltFlag <;> simp [State.haltReason, hrun, h, hhlt]

/-- With `fault_flag` clear, the step after which `pc` is no longer below `N` is that of the last line. -/
theorem halted_iff_hlt_or_lastLine {s t : State} (hready : s.runState = .ready) (hprog : t.prog = s.prog)
    (hpc : t.pc = s.pc + 1) (hfault : t.faultFlag = false) :
    t.runState = .halted ↔ t.hltFlag = true ∨ s.pc + 1 = s.progLen := by
  obtain ⟨-, -, hlt⟩ := (runState_ready_iff s).mp hready
  have hlast : t.progLen ≤ t.pc ↔ s.pc + 1 = s.progLen := by
    rw [State.progLen, hprog, hpc, ← State.progLen]; omega
  simp [runState_halted_iff, hfault, hlast]

/-- A block in Ready fetches the line `pc` names. -/
theorem fetchLine_of_ready {s : State} (h : s.runState = .ready) : s.fetchLine = s.prog[s.pc]? := by
  simp [State.fetchLine, h]

/-- After a step that kept program store and latches, the next line is the one fetched next. -/
theorem fetchLine_next {s t : State} (hready : s.runState = .ready) (hcontrol : s.SameControl t) (hpc : t.pc = s.pc + 1)
    (hmore : s.pc + 1 < s.progLen) : t.fetchLine = s.prog[s.pc + 1]? := by
  obtain ⟨hhlt, hfault, -⟩ := (runState_ready_iff s).mp hready
  obtain ⟨hprog, hhlt', hfault'⟩ := hcontrol
  have hready' : t.runState = .ready := by
    rw [runState_ready_iff, State.progLen, hprog, hpc]
    exact ⟨hhlt'.trans hhlt, hfault'.trans hfault, hmore⟩
  rw [fetchLine_of_ready hready', hprog, hpc]

/-! ## The statements -/

/-- Settles O28, by what `takeStructuralError` leaves; it is Halted, where only RESET and LOAD do anything. -/
theorem structuralErrorHaltsWithoutAWrite : Obligations.StructuralErrorHaltsWithoutAWrite := by
  intro s line e k hfetch hdecode
  obtain ⟨hhalted, hreason⟩ := takeStructuralError_halts (lineOpcode line) e k s
  refine ⟨_, step_fault hfetch hdecode, takeStructuralError_sameStorage _ e k s, rfl, rfl, rfl, ?parse, ?range, hhalted,
    hreason, fun p tr => transact_of_halted p hhalted⟩
  case parse => rintro rfl; exact takeStructuralError_recorded _ _ k s
  case range => rintro rfl; exact takeStructuralError_recorded _ _ k s

/-- Settles O12: the clauses of format F2 in the order it checks them, and the step records the decoder's fault, so that a
division by zero needs a line that decoded. -/
theorem firstFaultIsTheOneReported : Obligations.FirstFaultIsTheOneReported := by
  refine ⟨?unknownMnemonic, ?count, ?firstMalformed, ?firstImmediate, ?second, ?step, ?divisionByZero⟩
  case unknownMnemonic =>
    exact fun line mnem ops hline hmnem => (decode_of_unknown hline hmnem).2
  case count =>
    intro line mnem ops n hline harity hcount
    rw [(decode_of_tokens hline).2]
    exact decodeOperands_of_count_ne_arity harity (by rwa [stripComma_length])
  case firstMalformed =>
    intro line mnem ops t1 t2 e hline harity hops h1
    obtain ⟨mk, hdecode⟩ := decode_of_arity_two_role hline harity
    rw [hdecode, hops]
    exact decodeF2_first_error mk _ t2 h1
  case firstImmediate =>
    intro line mnem ops t1 t2 v hline hmov hops h1
    obtain ⟨mk, hdecode⟩ := decode_of_arity_two_role hline (by rw [hmov]; rfl)
    rw [hdecode, hops]
    exact decodeF2_first_not_admitted mk t2 h1 (by simp [hmov, Operand.isDestination])
  case second =>
    intro line mnem ops t1 t2 d1 e hline harity hops h1 hrole h2
    obtain ⟨mk, hdecode⟩ := decode_of_arity_two_role hline harity
    rw [hdecode, hops]
    exact decodeF2_second_error mk h1 (by simpa [← d1.isDestination_iff] using hrole) h2
  case step =>
    exact fun s line e k hfetch hdecode => ⟨_, step_fault hfetch hdecode, rfl, rfl⟩
  case divisionByZero =>
    intro s t line hfetch hstep hcode
    obtain ⟨d1, d2, hdecode, -⟩ := step_divisionByZero hfetch hstep hcode
    exact ⟨d1, d2, hdecode⟩

/-- Settles O31: each disposition answers the clause of its own event codes, and its code excludes the other two. -/
theorem eventDispositions : Obligations.EventDispositions := by
  intro s t hready hstep
  obtain ⟨hpc, -, -⟩ := step_ready_advances hready hstep
  have hprog := step_ready_prog hready hstep
  cases step_ready_disposition hready hstep with
  | completed hcode hlatch hfault =>
    have hhalted := halted_iff_hlt_or_lastLine hready hprog hpc hfault
    rw [hlatch] at hhalted
    exact ⟨fun _ => ⟨hhalted, haltReason_ne_fault hfault⟩, by simp [hcode], by simp [hcode]⟩
  | recoverable e he hcode hstorage hcontrol =>
    refine ⟨fun hok => ?_, fun _ => ⟨hstorage, hcontrol, hpc, fetchLine_next hready hcontrol hpc⟩, fun hstructural => ?_⟩
    · rcases he with rfl | rfl <;> simp [hcode] at hok
    · rcases he with rfl | rfl <;> simp [hcode] at hstructural
  | structural op e k ht =>
    subst ht
    obtain ⟨hhalted, hreason⟩ := takeStructuralError_halts op e k s
    refine ⟨fun hok => ?_, fun hrecoverable => ?_,
      fun _ => ⟨takeStructuralError_sameStorage op e k s, hprog, hpc, hhalted, hreason⟩⟩
    · rcases eventOfError_cases e with he | he <;> simp [he] at hok
    · rcases eventOfError_cases e with he | he <;> simp [he] at hrecoverable

end Machine

end Sys2Proof
end

section
/-! PROOFS. Reset: the storage it leaves, and why the block is then Halted (10_state.md R30; 70_reset_and_hazards.md R230). -/

namespace Sys2Proof.Machine

/-! ## The reason END (10_state.md R30) -/

/-- With no latch set, a block whose `pc` is past the last line is Halted with reason END. -/
theorem programEnd_halts {s : State} (hhlt : s.hltFlag = false) (hfault : s.faultFlag = false) (hpc : s.progLen ≤ s.pc) :
    s.runState = .halted ∧ s.haltReason = .programEnd := by
  have hhalted : s.runState = .halted := (runState_halted_iff s).mpr (.inr (.inr hpc))
  exact ⟨hhalted, by simp [State.haltReason, hhalted, hhlt, hfault]⟩

/-! ## The state after reset (70_reset_and_hazards.md R230) -/

section
variable (p : Config.Params)

@[simp] theorem readReg_resetWith (r : Reg) : (State.resetWith p).readReg r = p.regInit r := by
  cases r <;> rfl

@[simp] theorem memRead_resetWith (a : Addr) : (State.resetWith p).memRead a = 0 := rfl

@[simp] theorem isModified_resetWith (a : Addr) : (State.resetWith p).isModified a = false := rfl

@[simp] theorem progLen_resetWith : (State.resetWith p).progLen = 0 := rfl

/-- The program store is empty, so `pc = 0` is already past its last line. -/
theorem resetWith_halts : (State.resetWith p).runState = .halted ∧ (State.resetWith p).haltReason = .programEnd :=
  programEnd_halts rfl rfl (progLen_resetWith p).le

end

/-- Settles O41: RESET is its own branch of `transact`, each field is what `State.resetWith` puts there, and the run state follows
from the empty program store. -/
theorem resetValues : Obligations.ResetValues := by
  intro p
  obtain ⟨hhalted, hreason⟩ := resetWith_halts p
  exact ⟨fun _ => rfl, readReg_resetWith p, memRead_resetWith p, isModified_resetWith p, rfl, progLen_resetWith p, rfl, rfl, rfl,
    rfl, hhalted, hreason⟩

end Sys2Proof.Machine
end

section
/-! PROOFS. The encoder and the decoder agree, the packed word and its reader agree, and the mnemonics (30_encoding.md R74 to R91). -/

namespace Sys2Proof

/-! ## An encoded operand is read back (30_encoding.md R81 to R84) -/

/-- The encoder's decimal digits are an unsigned literal. -/
theorem decValue_encodeNat {fuel n : Nat} (h : n < 10 ^ (fuel + 1)) : decValue (encodeNat fuel n) = some (n : Int) := by
  obtain ⟨ds, hne, hlt, hbytes, hn⟩ := encodeNat_digits fuel n h
  exact (decimalLiteralsAreSignedDigits _ _).mpr ⟨ds, hne, hlt, .inl ⟨hbytes, congrArg _ hn⟩⟩

/-- The digits behind a minus sign are the negated literal. -/
theorem decValue_minus_encodeNat {fuel n : Nat} (h : n < 10 ^ (fuel + 1)) :
    decValue (0x2D :: encodeNat fuel n) = some (-(n : Int)) := by
  obtain ⟨ds, hne, hlt, hbytes, hn⟩ := encodeNat_digits fuel n h
  exact (decimalLiteralsAreSignedDigits _ _).mpr
    ⟨ds, hne, hlt, .inr (.inr ⟨congrArg _ hbytes, congrArg (fun m : Nat => -(m : Int)) hn⟩)⟩

/-- A signed literal is read back, the minus sign being that of its value. -/
theorem decValue_encodeInt {n : Int} (h : n.natAbs < 10 ^ 11) : decValue (encodeInt n) = some n := by
  unfold encodeInt
  split
  · rw [decValue_minus_encodeNat h]; congr 1; omega
  · rw [decValue_encodeNat h]; congr 1; omega

/-- The encoder's token for an operand spells that operand. -/
theorem encodeOperand_spells (d : Operand) : d.IsSpelledBy (encodeOperand d) := by
  cases d with
  | reg r => rfl
  | mem a => exact ⟨encodeNat 5 a.toNat, rfl, decValue_encodeNat (by have := a.isLt; omega)⟩
  | imm v =>
    have hrange := Machine.word_toInt_range v
    exact decValue_encodeInt (by omega)

theorem classify_encodeOperand (d : Operand) : classify (encodeOperand d) = .ok d :=
  classify_of_isSpelledBy (encodeOperand_spells d)

/-! ## An encoded line is read back (30_encoding.md R74, R91) -/

theorem Opcode.tokens_token (op : Opcode) : tokens op.token = [op.token] := by
  cases op <;> rfl

/-- The canonical F2 line has three tokens; the comma hangs on the first operand's. -/
theorem tokens_encodeF2 (op : Opcode) (d1 d2 : Operand) :
    tokens (encodeF2 op d1 d2) = [op.token, encodeOperand d1 ++ [0x2C], encodeOperand d2] := by
  obtain ⟨-, hbytes1⟩ := encodeOperand_bytes d1
  obtain ⟨hne2, hbytes2⟩ := encodeOperand_bytes d2
  have hfirst : tokens (encodeOperand d1 ++ [0x2C]) = [encodeOperand d1 ++ [0x2C]] := by
    refine tokens_of_tokenRun (by simp) fun b hb => ?_
    rcases List.mem_append.mp hb with hb | hb
    · exact (hbytes1 b hb).1
    · rw [List.mem_singleton.mp hb]; rfl
  have hsecond : tokens (encodeOperand d2) = [encodeOperand d2] := tokens_of_tokenRun hne2 fun b hb => (hbytes2 b hb).1
  have hline : encodeF2 op d1 d2 = op.token ++ 0x20 :: ((encodeOperand d1 ++ [0x2C]) ++ 0x20 :: encodeOperand d2) := by
    simp [encodeF2]
  rw [hline, tokens_append_whitespace _ _ rfl, tokens_append_whitespace _ _ rfl, op.tokens_token, hfirst, hsecond]
  rfl

/-- The canonical line of two operands, the first one admitted, is read back in format F2. -/
theorem decode_encodeF2 {op : Opcode} {mk : Operand → Operand → Instr} {firstIsDest : Bool} {d1 : Operand} (d2 : Operand)
    (hop : op ≠ .unknown) (hformat : ∀ ops, decodeOperands ops op = decodeF2 mk firstIsDest ops)
    (hdest : (firstIsDest && !d1.isDestination) = false) : decode (encodeF2 op d1 d2) = .instr (mk d1 d2) := by
  rw [(decode_of_tokens (tokens_encodeF2 op d1 d2)).2, stripComma_concat, Opcode.ofToken_token hop, hformat]
  exact decodeF2_two (classify_encodeOperand d1) (classify_encodeOperand d2) hdest

/-- Settles O1: format F2 for the five two-operand instructions, where only MOV needs its first operand admitted; the other two
lines are their mnemonic token. -/
theorem decodeOfEncodeIsTheInstruction : Obligations.DecodeOfEncodeIsTheInstruction := by
  intro i hwf
  cases i with
  | mov d1 d2 =>
    have hdest : d1.isDestination = true := hwf
    exact decode_encodeF2 d2 (by decide) (fun _ => rfl) (by rw [hdest]; rfl)
  | add d1 d2 => exact decode_encodeF2 d2 (by decide) (fun _ => rfl) rfl
  | sub d1 d2 => exact decode_encodeF2 d2 (by decide) (fun _ => rfl) rfl
  | mul d1 d2 => exact decode_encodeF2 d2 (by decide) (fun _ => rfl) rfl
  | div d1 d2 => exact decode_encodeF2 d2 (by decide) (fun _ => rfl) rfl
  | hlt => rfl
  | unknown => rfl

/-! ## What the decoder reads (30_encoding.md R79; 40_operand_resolver.md R107) -/

theorem decodeOperands_wf {ops : List Token} {op : Opcode} {i : Instr} (h : decodeOperands ops op = .instr i) :
    i.wf = true := by
  cases op with
  | mov =>
    obtain ⟨_, _, d1, d2, _, _, _, hdest, rfl⟩ := decodeF2_instr h
    simpa [Instr.wf] using hdest
  | hlt => cases ops <;> cases h; rfl
  | unknown => cases h; rfl
  | _ =>
    obtain ⟨_, _, d1, d2, _, _, _, _, rfl⟩ := decodeF2_instr h
    rfl

/-- Settles O5: the role check of format F2 stands before every MOV the decoder makes. -/
theorem decodedInstructionsAreWellFormed : Obligations.DecodedInstructionsAreWellFormed := by
  intro line i h
  obtain ⟨mnem, ops, hline⟩ := decode_tokens (line := line) (by simp [h])
  exact decodeOperands_wf ((decode_of_tokens hline).2.symm.trans h)

/-! ## Mnemonics and the spec's vectors (30_encoding.md R76; 95_test_vectors.md section 2.1) -/

/-- Settles O7: each mnemonic is the token of its opcode. -/
theorem mnemonicsMatchBytewise : Obligations.MnemonicsMatchBytewise :=
  fun _ => ⟨Opcode.ofToken_eq_iff (op := .mov) (by decide), Opcode.ofToken_eq_iff (op := .add) (by decide),
    Opcode.ofToken_eq_iff (op := .sub) (by decide), Opcode.ofToken_eq_iff (op := .mul) (by decide),
    Opcode.ofToken_eq_iff (op := .div) (by decide), Opcode.ofToken_eq_iff (op := .hlt) (by decide)⟩

/-- Settles O13: the decoder evaluated on the six lines. -/
theorem decodesSpecVectors : Obligations.DecodesSpecVectors :=
  ⟨rfl, rfl, rfl, rfl, rfl, rfl⟩

/-! ## The packed word is read back (30_encoding.md R88 to R90) -/

/-- A word unpacks to the instruction that its five fields are the parts of. -/
theorem unpack_eq_some_iff (w : BitVec 71) (i : Instr) :
    unpack w = some i ↔ ∃ op d1 d2, Opcode.ofCode (w.extractLsb' 0 3) = some op ∧
      unpackOperand (w.extractLsb' 3 2) (w.extractLsb' 5 32) = some d1 ∧
      unpackOperand (w.extractLsb' 37 2) (w.extractLsb' 39 32) = some d2 ∧ Instr.ofParts op d1 d2 = some i := by
  unfold unpack
  constructor
  · intro h
    split at h
    · next op d1 d2 hop hd1 hd2 => exact ⟨op, d1, d2, hop, hd1, hd2, h⟩
    · cases h
  · rintro ⟨op, d1, d2, hop, hd1, hd2, h⟩
    simp only [hop, hd1, hd2, h]

/-- A well-formed instruction is rebuilt from its own opcode and operands. -/
theorem ofParts_operands {i : Instr} (hwf : i.wf = true) : Instr.ofParts i.opcode i.operands.1 i.operands.2 = some i := by
  cases i with
  | mov d1 d2 => exact if_pos hwf
  | _ => rfl

/-- Settles O2: the packed word holds each part in its field, and each part is read back from its code. -/
theorem unpackOfPackIsTheInstruction : Obligations.UnpackOfPackIsTheInstruction := by
  intro i hwf
  obtain ⟨hop, hclass1, hpayload1, hclass2, hpayload2⟩ := pack_fields i
  refine (unpack_eq_some_iff _ _).mpr ⟨i.opcode, i.operands.1, i.operands.2, ?_, ?_, ?_, ofParts_operands hwf⟩
  · rw [hop, ofCode_iff]
  · rw [hclass1, hpayload1, unpackOperand_eq]
  · rw [hclass2, hpayload2, unpackOperand_eq]

/-- The five fields of a packed word cover it. -/
theorem eq_of_fields_eq {v w : BitVec 71} (hop : v.extractLsb' 0 3 = w.extractLsb' 0 3)
    (hclass1 : v.extractLsb' 3 2 = w.extractLsb' 3 2) (hpayload1 : v.extractLsb' 5 32 = w.extractLsb' 5 32)
    (hclass2 : v.extractLsb' 37 2 = w.extractLsb' 37 2) (hpayload2 : v.extractLsb' 39 32 = w.extractLsb' 39 32) : v = w := by
  refine BitVec.eq_of_toNat_eq ?_
  simp only [← BitVec.toNat_inj, BitVec.extractLsb'_toNat, Nat.shiftRight_eq_div_pow] at hop hclass1 hpayload1 hclass2 hpayload2
  have hv := v.isLt
  have hw := w.isLt
  omega

/-- Settles O3: the parts a word unpacks to have the codes and payloads of its fields, and code 7 is no opcode's. -/
theorem unpackedWordsArePackedWords : Obligations.UnpackedWordsArePackedWords := by
  constructor
  · intro w i h
    obtain ⟨op, d1, d2, hop, hd1, hd2, hparts⟩ := (unpack_eq_some_iff w i).mp h
    obtain ⟨hopcode, hoperands, hwf⟩ := ofParts_some hparts
    obtain ⟨hclass1, hpayload1⟩ := unpackOperand_some hd1
    obtain ⟨hclass2, hpayload2⟩ := unpackOperand_some hd2
    have hfields := pack_fields i
    rw [hopcode, hoperands, (ofCode_iff _ _).mp hop, hclass1, hpayload1, hclass2, hpayload2] at hfields
    obtain ⟨hf1, hf2, hf3, hf4, hf5⟩ := hfields
    exact ⟨hwf, eq_of_fields_eq hf1 hf2 hf3 hf4 hf5⟩
  · intro w hcode
    refine Option.eq_none_iff_forall_ne_some.mpr fun i h => ?_
    obtain ⟨op, _, _, hop, -⟩ := (unpack_eq_some_iff w i).mp h
    exact op.code_ne_seven (((ofCode_iff _ _).mp hop).trans hcode)

end Sys2Proof
end

section
/-! PROOFS. Operand writes, and what a step on a fetched line records, latches and writes (10_state.md R20 to R33; 40_operand_resolver.md R106 to R110; 41_execution_engine.md R121 to R128; 60_exceptions.md R200 to R205). -/

namespace Sys2Proof.Machine

/-! ## Destination writes (40_operand_resolver.md R106 to R110) -/

/-- A register write is read back, and changes neither another register, nor memory, nor control. -/
theorem resolveDestination_reg_effect (r : Reg) (v : Word) (s : State) :
    ∃ t, resolveDestination (.reg r) v s = some t ∧ resolveSource (.reg r) t = v ∧
      (∀ q, q ≠ r → t.readReg q = s.readReg q) ∧ s.SameMemory t ∧ s.SameControl t ∧ t.pc = s.pc ∧ t.event = s.event :=
  ⟨s.writeReg r v, rfl, readReg_writeReg_same s r v, readReg_writeReg_other s v r,
    ⟨writeReg_memRead s r v, writeReg_isModified s r v⟩,
    ⟨writeReg_prog s r v, writeReg_hltFlag s r v, writeReg_faultFlag s r v⟩, writeReg_pc s r v, writeReg_event s r v⟩

/-- A memory write is read back and marked, and changes neither another word or bit, nor a register, nor control. -/
theorem resolveDestination_mem_effect (a : Addr) (v : Word) {s : State} (hmem : s.mem.wf) :
    ∃ t, resolveDestination (.mem a) v s = some t ∧ resolveSource (.mem a) t = v ∧ t.isModified a = true ∧
      (∀ r, t.readReg r = s.readReg r) ∧ (∀ b, b ≠ a → t.memRead b = s.memRead b ∧ t.isModified b = s.isModified b) ∧
      s.SameControl t ∧ t.pc = s.pc ∧ t.event = s.event :=
  ⟨s.memWrite a v, rfl, memRead_memWrite_same s a v hmem, isModified_memWrite_same s a v, memWrite_readReg s a v,
    fun b hb => ⟨memRead_memWrite_other s a b v hb, isModified_memWrite_other s a b v hb⟩, ⟨rfl, rfl, rfl⟩, rfl, rfl⟩

/-- Settles O15: the effect of the write for each destination class; an immediate is none. -/
theorem destinationRoundTrip : Obligations.DestinationRoundTrip :=
  fun s v hmem => ⟨fun r => resolveDestination_reg_effect r v s, fun a => resolveDestination_mem_effect a v hmem, fun _ => rfl⟩

/-- Settles O24: `exec` of the form is the structural error, whose frame is known. -/
theorem movToImmediateTakesStructuralError : Obligations.MovToImmediateTakesStructuralError :=
  fun v src s => ⟨_, execMov_imm v src s, takeStructuralError_sameStorage .mov .operandParse 1 s, rfl, rfl, rfl,
    takeStructuralError_recorded .mov .operandParse 1 s⟩

/-! ## Fetch and dispatch (41_execution_engine.md R121 to R125) -/

/-- Settles O25: the step dispatches on the decoded line, and `exec` answers and advances `pc`. -/
theorem stepRunsTheDecodedInstruction : Obligations.StepRunsTheDecodedInstruction := by
  intro s line i hfetch hdecode
  obtain ⟨t, ht⟩ := exec_next i s
  obtain ⟨hpc, -⟩ := (exec_cases ht).fetched
  exact ⟨step_instr hfetch hdecode, t, ht, hpc⟩

/-- Settles O26, by what Ready means and the two branches of `fetchLine`. -/
theorem fetchReadsTheLineAtPc : Obligations.FetchReadsTheLineAtPc := by
  refine fun s => ⟨fun hready => ⟨?_, fetchLine_ready hready⟩, fetchLine_halted⟩
  obtain ⟨-, -, hlt⟩ := (runState_ready_iff s).mp hready
  exact hlt

/-- A step on a fetched line executes the well-formed instruction it decodes to, or takes the structural error of decoding. -/
theorem step_fetched_cases {s t : State} {line : Line} (hfetch : s.fetchLine = some line) (hstep : step s = .next t) :
    (∃ i, decode line = .instr i ∧ i.wf = true ∧ ExecCase i s t) ∨
    ∃ e k, decode line = .fault e k ∧ t = s.takeStructuralError (lineOpcode line) e k := by
  cases step_cases hstep with
  | halted hr _ => simp [fetchLine_halted hr] at hfetch
  | instr line' i hf hd hx =>
    obtain rfl : line' = line := Option.some.inj (hf.symm.trans hfetch)
    exact .inl ⟨i, hd, decodedInstructionsAreWellFormed _ i hd, hx⟩
  | fault line' e k hf hd ht =>
    obtain rfl : line' = line := Option.some.inj (hf.symm.trans hfetch)
    exact .inr ⟨e, k, hd, ht⟩

/-- A step takes no line and changes nothing, or takes one; a statement about fetched lines covers every step. -/
theorem step_halted_or_fetched {s t : State} (hstep : step s = .next t) :
    (s.fetchLine = none ∧ t = s) ∨ ∃ line, s.fetchLine = some line := by
  cases step_cases hstep with
  | halted hr ht => exact .inl ⟨fetchLine_halted hr, ht⟩
  | instr line _ hf _ _ => exact .inr ⟨line, hf⟩
  | fault line _ _ hf _ _ => exact .inr ⟨line, hf⟩

/-! ## What the record and the latches show of a line (60_exceptions.md R200 to R205; 10_state.md R29) -/

/-- What a step from `s` on `line` leaves in the record and the latches of `t`: one case for each event, and one for HLT. -/
inductive LineOutcome (s t : State) (line : Line) : Prop where
  /-- The line completed and is no HLT. -/
  | completed (i : Instr) (hd : decode line = .instr i) (hhlt : i ≠ .hlt) (hunknown : i ≠ .unknown)
      (hdiv : ∀ d1 d2, i = .div d1 d2 → resolveSource d2 s ≠ 0) (hrec : s.Recorded t .ok i.opcode 0) (hsame : s.SameControl t)
  | hlt (hd : decode line = .instr .hlt) (hrec : s.Recorded t .ok .hlt 0) (hprog : t.prog = s.prog) (hlatch : t.hltFlag = true)
      (hfault : t.faultFlag = s.faultFlag)
  | divisionByZero (d1 d2 : Operand) (hd : decode line = .instr (.div d1 d2)) (h0 : resolveSource d2 s = 0)
      (hrec : s.Recorded t .divisionByZero .div 2) (hsame : s.SameControl t)
  | unknown (hd : decode line = .instr .unknown) (hrec : s.Recorded t .unknownInstruction .unknown 0) (hsame : s.SameControl t)
  | structural (e : StructuralError) (k : BitVec 2) (hd : decode line = .fault e k)
      (hrec : s.Recorded t (eventOfError e) (lineOpcode line) k) (hprog : t.prog = s.prog) (hhlt : t.hltFlag = s.hltFlag)
      (hfault : t.faultFlag = true)

/-- HLT and UNKNOWN are the only instructions of their opcodes. -/
theorem opcode_eq_hlt_iff (i : Instr) : i.opcode = .hlt ↔ i = .hlt := by
  cases i <;> simp [Instr.opcode]

theorem opcode_eq_unknown_iff (i : Instr) : i.opcode = .unknown ↔ i = .unknown := by
  cases i <;> simp [Instr.opcode]

/-- Every step on a fetched line has one of these outcomes. A MOV to an immediate, which has none, is not decoded. -/
theorem step_lineOutcome {s t : State} {line : Line} (hfetch : s.fetchLine = some line) (hstep : step s = .next t) :
    LineOutcome s t line := by
  rcases step_fetched_cases hfetch hstep with ⟨i, hd, hwf, hx⟩ | ⟨e, k, hd, rfl⟩
  · cases hx with
    | movReg r d hi ht =>
      subst hi ht
      exact .completed _ hd (by simp) (by simp) (by simp) (by simp [State.Recorded, Instr.opcode]) (by simp [State.SameControl])
    | movMem a d hi ht =>
      subst hi ht
      exact .completed _ hd (by simp) (by simp) (by simp) ⟨rfl, rfl⟩ ⟨rfl, rfl, rfl⟩
    | movImm v d hi ht =>
      subst hi
      cases hwf
    | arith op n hop hi hdiv ht =>
      subst hi ht
      refine .completed i hd ?_ ?_ (fun d1 d2 hi => ?_) ⟨rfl, rfl⟩ ⟨rfl, rfl, rfl⟩
      · rintro rfl; simp [Instr.opcode] at hop
      · rintro rfl; simp [Instr.opcode] at hop
      · subst hi
        obtain ⟨e1, e2, he, hne⟩ := hdiv rfl
        obtain ⟨rfl, rfl⟩ := Instr.div.inj he
        exact hne
    | divZero d1 d2 hi h0 ht => subst hi ht; exact .divisionByZero d1 d2 hd h0 ⟨rfl, rfl⟩ ⟨rfl, rfl, rfl⟩
    | hlt hi ht => subst hi ht; exact .hlt hd ⟨rfl, rfl⟩ rfl rfl rfl
    | unknown hi ht => subst hi ht; exact .unknown hd ⟨rfl, rfl⟩ ⟨rfl, rfl, rfl⟩
  · exact .structural e k hd (takeStructuralError_recorded _ e k s) rfl rfl rfl

section
variable {s t : State} {line : Line} (h : LineOutcome s t line)
include h

/-- Whatever the event, the record names the opcode of the line. -/
theorem LineOutcome.recorded : ∃ e k, s.Recorded t e (lineOpcode line) k := by
  cases h with
  | completed i hd _ _ _ hrec _ => exact ⟨_, _, by rw [decode_opcode hd]; exact hrec⟩
  | hlt hd hrec _ _ _ => exact ⟨_, _, by rw [decode_opcode hd]; exact hrec⟩
  | divisionByZero d1 d2 hd _ hrec _ => exact ⟨_, _, by rw [decode_opcode hd]; exact hrec⟩
  | unknown hd hrec _ => exact ⟨_, _, by rw [decode_opcode hd]; exact hrec⟩
  | structural e k hd hrec _ _ _ => exact ⟨_, _, hrec⟩

theorem LineOutcome.prog_eq : t.prog = s.prog := by
  cases h with
  | completed _ _ _ _ _ _ hsame => exact hsame.1
  | hlt _ _ hprog _ _ => exact hprog
  | divisionByZero _ _ _ _ _ hsame => exact hsame.1
  | unknown _ _ hsame => exact hsame.1
  | structural _ _ _ _ hprog _ _ => exact hprog

theorem LineOutcome.hltFlag_iff : t.hltFlag = true ↔ s.hltFlag = true ∨ decode line = .instr .hlt := by
  cases h with
  | completed i hd hhlt _ _ _ hsame => simp [hsame.2.1, hd, hhlt]
  | hlt hd _ _ hlatch _ => simp [hlatch, hd]
  | divisionByZero _ _ hd _ _ hsame => simp [hsame.2.1, hd]
  | unknown hd _ hsame => simp [hsame.2.1, hd]
  | structural _ _ hd _ _ hhlt _ => simp [hhlt, hd]

theorem LineOutcome.faultFlag_iff : t.faultFlag = true ↔ s.faultFlag = true ∨ ∃ e k, decode line = .fault e k := by
  cases h with
  | completed i hd _ _ _ _ hsame => simp [hsame.2.2, hd]
  | hlt hd _ _ _ hfault => simp [hfault, hd]
  | divisionByZero _ _ hd _ _ hsame => simp [hsame.2.2, hd]
  | unknown hd _ hsame => simp [hsame.2.2, hd]
  | structural e k hd _ _ _ hfault => simp [hfault, hd]

end

/-! ## Which line raises which event (60_exceptions.md R200 to R202) -/

/-- The record of a step names its event. -/
theorem State.Recorded.code_iff {s t : State} {e : Event} {op : Opcode} {k : BitVec 2} (h : s.Recorded t e op k) (f : Event) :
    t.event.code = f.code ↔ e = f := by
  rw [h.2]
  exact event_code_inj e f

/-- A decoded line has the opcode UNKNOWN exactly as the instruction UNKNOWN. -/
theorem lineOpcode_eq_unknown_iff {line : Line} {i : Instr} (hd : decode line = .instr i) :
    lineOpcode line = .unknown ↔ i = .unknown := by
  rw [decode_opcode hd, opcode_eq_unknown_iff]

/-- A structural error's event tells which of the two it is. -/
theorem eventOfError_inj (e f : StructuralError) : eventOfError e = eventOfError f ↔ e = f := by
  cases e <;> cases f <;> simp [eventOfError]

/-- HLT has no operand that could name an address: its structural errors are surplus operands. -/
theorem decode_addressOutOfRange_opcode {line : Line} {k : BitVec 2} (hd : decode line = .fault .addressOutOfRange k) :
    lineOpcode line ≠ .hlt := by
  obtain ⟨mnem, ops, hline⟩ := decode_tokens (line := line) (by simp [hd])
  obtain ⟨hopcode, hdecode⟩ := decode_of_tokens hline
  intro hhlt
  rw [hdecode, hopcode.symm.trans hhlt] at hd
  cases hops : stripComma ops <;> simp [hops, decodeOperands, decodeF0] at hd

section
variable {s t : State} {line : Line} (h : LineOutcome s t line)
include h

theorem LineOutcome.divisionByZero_iff :
    t.event.code = Event.divisionByZero.code ↔ ∃ d1 d2, decode line = .instr (.div d1 d2) ∧ resolveSource d2 s = 0 := by
  cases h with
  | completed i hd _ _ hdiv hrec _ =>
    rw [hrec.code_iff, hd]
    simp only [reduceCtorEq, DecodeResult.instr.injEq, false_iff]
    rintro ⟨d1, d2, hi, h0⟩
    exact hdiv d1 d2 hi h0
  | hlt hd hrec _ _ _ => simp [hrec.code_iff, hd]
  | divisionByZero d1 d2 hd h0 hrec _ => simpa [hrec.code_iff] using ⟨d1, d2, hd, h0⟩
  | unknown hd hrec _ => simp [hrec.code_iff, hd]
  | structural e k hd hrec _ _ _ => simp [hrec.code_iff, hd, eventOfError_ne_divisionByZero]

theorem LineOutcome.unknownInstruction_iff :
    t.event.code = Event.unknownInstruction.code ↔ lineOpcode line = .unknown := by
  cases h with
  | completed i hd _ hunknown _ hrec _ => simp [hrec.code_iff, lineOpcode_eq_unknown_iff hd, hunknown]
  | hlt hd hrec _ _ _ => simp [hrec.code_iff, lineOpcode_eq_unknown_iff hd]
  | divisionByZero d1 d2 hd _ hrec _ => simp [hrec.code_iff, lineOpcode_eq_unknown_iff hd]
  | unknown hd hrec _ => simp [hrec.code_iff, lineOpcode_eq_unknown_iff hd]
  | structural e k hd hrec _ _ _ =>
    have hne : eventOfError e ≠ .unknownInstruction := by rcases eventOfError_cases e with he | he <;> simp [he]
    simp [hrec.code_iff, decode_fault_opcode hd, hne]

/-- The two structural events are those of the lines that do not decode. -/
theorem LineOutcome.structural_iff (e : StructuralError) :
    t.event.code = (eventOfError e).code ↔ ∃ k, decode line = .fault e k := by
  have hnot : ∀ {f : Event} {op : Opcode} {k : BitVec 2}, s.Recorded t f op k →
      f ≠ .operandParseError → f ≠ .addressOutOfRange → t.event.code ≠ (eventOfError e).code := by
    intro f op k hrec hparse hrange hcode
    rcases eventOfError_cases e with he | he <;> rw [he, hrec.code_iff] at hcode
    · exact hparse hcode
    · exact hrange hcode
  cases h with
  | completed i hd _ _ _ hrec _ => simp [hd, hnot hrec]
  | hlt hd hrec _ _ _ => simp [hd, hnot hrec]
  | divisionByZero d1 d2 hd _ hrec _ => simp [hd, hnot hrec]
  | unknown hd hrec _ => simp [hd, hnot hrec]
  | structural f k hd hrec _ _ _ => simp [hrec.code_iff, eventOfError_inj, hd]

end

/-- Settles O32: the codes by evaluation, then one clause of `LineOutcome` for each event. -/
theorem eventsAreRaisedByTheirLines : Obligations.EventsAreRaisedByTheirLines := by
  refine ⟨⟨rfl, rfl, rfl, rfl, rfl⟩, fun s t line hfetch hstep => ?_⟩
  have h := step_lineOutcome hfetch hstep
  obtain ⟨e, k, -, hevent⟩ := h.recorded
  refine ⟨by rw [hevent], h.divisionByZero_iff, h.unknownInstruction_iff, h.structural_iff .operandParse,
    h.structural_iff .addressOutOfRange, fun hcode => ?_⟩
  obtain ⟨k, hd⟩ := (h.structural_iff .addressOutOfRange).mp hcode
  exact decode_addressOutOfRange_opcode hd

/-! ## The latches, the program store and the run state (10_state.md R29; 20_memory.md R62; 41_execution_engine.md R121) -/

/-- Settles O33: without a fetched line nothing changes, and with one the latches are those of its outcome. -/
theorem latchesAreSetOnlyByHltAndErrors : Obligations.LatchesAreSetOnlyByHltAndErrors := by
  intro s t hstep
  rcases step_halted_or_fetched hstep with ⟨hnone, rfl⟩ | ⟨line, hfetch⟩
  · simp [hnone]
  · have h := step_lineOutcome hfetch hstep
    simp [hfetch, h.hltFlag_iff, h.faultFlag_iff]

/-- Settles O34: without a fetched line nothing changes, and with one `pc` advances by 1. -/
theorem stepsNeverWriteTheProgram : Obligations.StepsNeverWriteTheProgram := by
  intro s t hstep
  rcases step_halted_or_fetched hstep with ⟨-, rfl⟩ | ⟨line, hfetch⟩
  · exact ⟨rfl, .inl rfl, fun _ => rfl⟩
  · have h := step_lineOutcome hfetch hstep
    obtain ⟨e, k, hpc, -⟩ := h.recorded
    exact ⟨h.prog_eq, .inr hpc, fun hstay => by omega⟩

/-- A LOAD leaves the block in Ready exactly when it keeps a line: `pc` and the latches are clear. -/
theorem loaded_ready_iff (lines : List Line) (s : State) :
    (s.loaded lines).runState = .ready ↔ ∃ l ∈ lines, tokens l ≠ [] := by
  simp [runState_ready_iff, State.progLen, List.length_pos_iff_exists_mem, mem_keptLines]

/-- Settles O38: after a fetch the latches were clear and `pc` below `N`, so each of the three conditions of Halted has its own cause. -/
theorem runStateTransitions : Obligations.RunStateTransitions := by
  refine ⟨fun s t line hfetch hstep => ?_, fun _ => step_halted, fun s lines => loaded_ready_iff lines s,
    fun p => (resetWith_halts p).1, fun s hfetch => ?_⟩
  · have h := step_lineOutcome hfetch hstep
    obtain ⟨hhlt, hfault, hlt⟩ := (runState_ready_iff s).mp (fetchLine_some hfetch).1
    obtain ⟨e, k, hpc, -⟩ := h.recorded
    have hlast : t.progLen ≤ t.pc ↔ s.pc + 1 = s.progLen := by
      rw [State.progLen, h.prog_eq, hpc, ← State.progLen]; omega
    simp [runState_halted_iff, h.hltFlag_iff, h.faultFlag_iff, hhlt, hfault, hlast]
  · obtain ⟨line, hline⟩ := Option.ne_none_iff_exists'.mp hfetch
    have hready := (fetchLine_some hline).1
    exact ⟨hready, ((runState_ready_iff s).mp hready).2.2⟩

/-! ## The writers of registers and memory (10_state.md R21, R22, R28) -/

/-- The instructions that may write a register: MOV to it, and for AX the arithmetic of R160, DIV with a divisor other than 0. -/
theorem ExecCase.register_writer {i : Instr} {s t : State} (h : ExecCase i s t) {r : Reg} (hchange : t.readReg r ≠ s.readReg r) :
    (∃ d, i = .mov (.reg r) d) ∨
    (r = .ax ∧ ∃ d1 d2, i = .add d1 d2 ∨ i = .sub d1 d2 ∨ i = .mul d1 d2 ∨ (i = .div d1 d2 ∧ resolveSource d2 s ≠ 0)) := by
  cases h with
  | movReg q d hi ht =>
    by_cases hq : r = q
    · subst hq; exact .inl ⟨d, hi⟩
    · exact absurd (by simp [ht, readReg_writeReg_other _ _ q r hq]) hchange
  | arith op n hop hi hdiv ht =>
    have hax : r = .ax := by
      by_contra hne
      exact hchange (ht ▸ writeAccumulator_readReg_other s op n r hne)
    refine .inr ⟨hax, ?_⟩
    subst hi
    cases i with
    | add d1 d2 => exact ⟨d1, d2, .inl rfl⟩
    | sub d1 d2 => exact ⟨d1, d2, .inr (.inl rfl)⟩
    | mul d1 d2 => exact ⟨d1, d2, .inr (.inr (.inl rfl))⟩
    | div _ _ =>
      obtain ⟨d1, d2, hi, hne⟩ := hdiv rfl
      exact ⟨d1, d2, .inr (.inr (.inr ⟨hi, hne⟩))⟩
    | _ => simp [Instr.opcode] at hop
  | movMem _ _ _ ht => exact absurd (by simp [ht]) hchange
  | movImm _ _ _ ht => exact absurd (by simp [ht]) hchange
  | divZero _ _ _ _ ht => exact absurd (by simp [ht]) hchange
  | hlt _ ht => exact absurd (by simp [ht]) hchange
  | unknown _ ht => exact absurd (by simp [ht]) hchange

/-- Settles O35: a structural error writes no register, and an executed line only those of `ExecCase.register_writer`. -/
theorem registersHaveTheirWriters : Obligations.RegistersHaveTheirWriters := by
  intro s t r hstep hchange
  rcases step_halted_or_fetched hstep with ⟨-, rfl⟩ | ⟨line, hfetch⟩
  · exact absurd rfl hchange
  · refine ⟨line, hfetch, ?_⟩
    rcases step_fetched_cases hfetch hstep with ⟨i, hd, -, hx⟩ | ⟨e, k, -, rfl⟩
    · simpa only [hd, DecodeResult.instr.injEq] using hx.register_writer hchange
    · exact absurd (takeStructuralError_readReg s _ e k r) hchange

/-- An executed instruction leaves data memory and modified set alone, but for a MOV to a word, which writes that word. -/
theorem ExecCase.memory_cases {i : Instr} {s t : State} (h : ExecCase i s t) :
    (t.mem = s.mem ∧ t.modified = s.modified) ∨
    ∃ a d v, i = .mov (.mem a) d ∧ t.mem = (s.memWrite a v).mem ∧ t.modified = (s.memWrite a v).modified := by
  cases h with
  | movMem a d hi ht => subst ht; exact .inr ⟨a, d, _, hi, rfl, rfl⟩
  | movReg _ _ _ ht => subst ht; simp
  | movImm _ _ _ ht => subst ht; simp
  | arith _ _ _ _ _ ht => subst ht; simp
  | divZero _ _ _ _ ht => subst ht; simp
  | hlt _ ht => subst ht; simp
  | unknown _ ht => subst ht; simp

/-- So does a step: its only memory write is that of a MOV to a word. -/
theorem step_memory_cases {s t : State} (hstep : step s = .next t) :
    (t.mem = s.mem ∧ t.modified = s.modified) ∨
    ∃ line a d v, s.fetchLine = some line ∧ decode line = .instr (.mov (.mem a) d) ∧
      t.mem = (s.memWrite a v).mem ∧ t.modified = (s.memWrite a v).modified := by
  rcases step_halted_or_fetched hstep with ⟨-, rfl⟩ | ⟨line, hfetch⟩
  · exact .inl ⟨rfl, rfl⟩
  · rcases step_fetched_cases hfetch hstep with ⟨i, hd, -, hx⟩ | ⟨e, k, -, rfl⟩
    · rcases hx.memory_cases with hsame | ⟨a, d, v, rfl, hmem, hmod⟩
      · exact .inl hsame
      · exact .inr ⟨line, a, d, v, hfetch, hd, hmem, hmod⟩
    · exact .inl ⟨rfl, rfl⟩

/-- The words and the modified bits a state shows are those of its memory and its modified set. -/
theorem memRead_congr {s t : State} (h : t.mem = s.mem) (a : Addr) : t.memRead a = s.memRead a := by
  rw [State.memRead, h, State.memRead]

theorem isModified_congr {s t : State} (h : t.modified = s.modified) (a : Addr) : t.isModified a = s.isModified a := by
  rw [State.isModified, h, State.isModified]

/-- Settles O36: the one memory write is that of a MOV to the word, and it sets the bit of its own address only. -/
theorem memoryHasOneWriter : Obligations.MemoryHasOneWriter := by
  intro s t a hstep
  rcases step_memory_cases hstep with ⟨hmem, hmod⟩ | ⟨line, b, d, v, hfetch, hd, hmem, hmod⟩
  · rw [memRead_congr hmem, isModified_congr hmod]
    exact ⟨fun hchange => by simp at hchange, id⟩
  · rw [memRead_congr hmem, isModified_congr hmod]
    by_cases hab : a = b
    · subst hab
      exact ⟨fun _ => ⟨line, d, hfetch, hd⟩, fun _ => isModified_memWrite_same s a v⟩
    · rw [memRead_memWrite_other s b a v hab, isModified_memWrite_other s b a v hab]
      exact ⟨fun hchange => by simp at hchange, id⟩

/-! ## Modified bits and event record steer nothing (10_state.md R28; 41_execution_engine.md R131) -/

/-- The state with other modified bits and another event record. -/
def State.withMarks (m : AddrSet) (e : EventRegs) (s : State) : State := { s with modified := m, event := e }

section
variable (m : AddrSet) (e : EventRegs) (s : State)

@[simp] theorem readReg_withMarks (r : Reg) : (s.withMarks m e).readReg r = s.readReg r := by
  cases r <;> rfl

@[simp] theorem fetchLine_withMarks : (s.withMarks m e).fetchLine = s.fetchLine := rfl

@[simp] theorem resolveSource_withMarks (d : Operand) : resolveSource d (s.withMarks m e) = resolveSource d s := by
  cases d with
  | reg r => exact readReg_withMarks m e s r
  | mem a => rfl
  | imm v => rfl

@[simp] theorem writeAccumulator_withMarks (op : Opcode) (n : Int) :
    writeAccumulator op n (s.withMarks m e) = (writeAccumulator op n s).withMarks m (writeAccumulator op n s).event := rfl

/-- A MOV to a register keeps the modified bits it finds; one to a word adds its bit to them. -/
theorem execMov_withMarks (d1 d2 : Operand) {t : State} (h : execMov d1 d2 s = .next t) :
    ∃ n, execMov d1 d2 (s.withMarks m e) = .next (t.withMarks n t.event) := by
  cases d1 with
  | reg r =>
    obtain rfl := Host.Outcome.next.inj h
    refine ⟨m, ?_⟩
    rw [execMov_reg, resolveSource_withMarks]
    cases r <;> rfl
  | mem a =>
    obtain rfl := Host.Outcome.next.inj h
    refine ⟨AddrSet.insert a.toNat m, ?_⟩
    rw [execMov_mem, resolveSource_withMarks]
    rfl
  | imm v =>
    obtain rfl := Host.Outcome.next.inj h
    exact ⟨m, rfl⟩

theorem execDiv_withMarks (d1 d2 : Operand) {t : State} (h : execDiv d1 d2 s = .next t) :
    execDiv d1 d2 (s.withMarks m e) = .next (t.withMarks m t.event) := by
  by_cases h0 : resolveSource d2 s = 0
  · obtain rfl := Host.Outcome.next.inj ((execDiv_zero h0).symm.trans h)
    exact execDiv_zero (by rwa [resolveSource_withMarks])
  · obtain rfl := Host.Outcome.next.inj ((execDiv_nonzero h0).symm.trans h)
    rw [execDiv_nonzero (by rwa [resolveSource_withMarks]), resolveSource_withMarks, resolveSource_withMarks,
      writeAccumulator_withMarks]

/-- An executed instruction overwrites the record, and reads neither it nor a modified bit. -/
theorem exec_withMarks {i : Instr} {t : State} (h : exec i s = .next t) :
    ∃ n, exec i (s.withMarks m e) = .next (t.withMarks n t.event) := by
  cases i with
  | mov d1 d2 => exact execMov_withMarks m e s d1 d2 h
  | add d1 d2 => obtain rfl := Host.Outcome.next.inj h; exact ⟨m, by simp [exec, execAdd]⟩
  | sub d1 d2 => obtain rfl := Host.Outcome.next.inj h; exact ⟨m, by simp [exec, execSub]⟩
  | mul d1 d2 => obtain rfl := Host.Outcome.next.inj h; exact ⟨m, by simp [exec, execMul]⟩
  | div d1 d2 => exact ⟨m, execDiv_withMarks m e s d1 d2 h⟩
  | hlt => obtain rfl := Host.Outcome.next.inj h; exact ⟨m, rfl⟩
  | unknown => obtain rfl := Host.Outcome.next.inj h; exact ⟨m, rfl⟩

/-- A step from other marks leaves the same state but for the modified bits, and for the record where no line is fetched. -/
theorem step_withMarks {t : State} (hstep : step s = .next t) :
    ∃ n f, step (s.withMarks m e) = .next (t.withMarks n f) ∧ (s.runState = .ready → f = t.event) := by
  cases step_cases hstep with
  | halted hr ht =>
    subst ht
    exact ⟨m, e, step_halted hr, fun hready => by rw [hr] at hready; cases hready⟩
  | instr line i hf hd hx =>
    obtain ⟨n, hn⟩ := exec_withMarks m e s ((step_instr hf hd).symm.trans hstep)
    exact ⟨n, t.event, (step_instr (by rwa [fetchLine_withMarks]) hd).trans hn, fun _ => rfl⟩
  | fault line err k hf hd ht =>
    subst ht
    exact ⟨m, _, step_fault (by rwa [fetchLine_withMarks]) hd, fun _ => rfl⟩

end

/-- Settles O37: the two states step to states that differ only in their marks. -/
theorem modifiedBitsAndEventsSteerNothing : Obligations.ModifiedBitsAndEventsSteerNothing := by
  intro s t m e hstep
  obtain ⟨n, f, hmarks, hevent⟩ := step_withMarks m e s hstep
  exact ⟨t.withMarks n f, hmarks, readReg_withMarks n f t, rfl, rfl, rfl, rfl, rfl, hevent⟩

end Sys2Proof.Machine
end

section
/-! PROOFS. The invariant: reset, LOAD and every step keep it, and what it says of the status, the event port and every transaction (10_state.md R30 to R36; 41_execution_engine.md R129 to R135). -/

namespace Sys2Proof.Machine

/-! ## The parts of the invariant -/

/-- What the invariant says of data memory and modified bits (10_state.md R27, R28). -/
structure State.MemoryInv (s : State) : Prop where
  mem_wf : s.mem.wf
  modified_wf : s.modified.wf
  written : ∀ a : Addr, s.memRead a ≠ 0 → s.isModified a = true

/-- What the invariant says of the stored lines (10_state.md R24). -/
structure State.ProgramInv (p : Config.Params) (s : State) : Prop where
  prog_le : s.progLen ≤ p.progMax
  lines_ok : ∀ l ∈ s.prog, isBlank l = false ∧ l.length ≤ p.lineMax

/-- What the invariant says of the latches and of an event record's codes (10_state.md R30, R32; 60_exceptions.md R200 to R205). -/
structure State.RecordInv (s : State) : Prop where
  latches : ¬(s.hltFlag = true ∧ s.faultFlag = true)
  event_code : s.event.code.toNat ≤ 4
  event_op : s.event.op.toNat ≤ 6
  fault_event : s.faultFlag = true ↔ 3 ≤ s.event.code.toNat
  hlt_event : s.hltFlag = true ↔ s.event.code = Event.ok.code ∧ s.event.op = Opcode.hlt.code
  div_event : s.event.code = Event.divisionByZero.code → s.event.op = Opcode.div.code ∧ s.event.opnd = 2
  unknown_event : s.event.code = Event.unknownInstruction.code ↔ s.event.op = Opcode.unknown.code

variable {p : Config.Params} {s t : State}

theorem State.Inv.memoryInv (h : s.Inv p) : s.MemoryInv := ⟨h.mem_wf, h.modified_wf, h.written⟩

theorem State.Inv.programInv (h : s.Inv p) : s.ProgramInv p := ⟨h.prog_le, h.lines_ok⟩

/-- After reset or LOAD the record is cleared, `pc` is 0 and no latch is set; the rest is memory and program store. -/
theorem inv_of_cleared (hmem : s.MemoryInv) (hprog : s.ProgramInv p) (hpc : s.pc = 0) (hhlt : s.hltFlag = false)
    (hfault : s.faultFlag = false) (hevent : s.event = EventRegs.cleared) : s.Inv p where
  mem_wf := hmem.mem_wf
  modified_wf := hmem.modified_wf
  written := hmem.written
  pc_le := by omega
  prog_le := hprog.prog_le
  lines_ok := hprog.lines_ok
  latches := by simp [hhlt]
  event_cleared := fun _ => ⟨hevent, hpc, hhlt, hfault⟩
  event_pc := by simp [hevent, EventRegs.cleared]
  event_code := by simp [hevent, EventRegs.cleared]
  event_op := by simp [hevent, EventRegs.cleared]
  fault_event := by simp [hevent, hfault, EventRegs.cleared]
  hlt_event := by simp [hevent, hhlt, EventRegs.cleared, Opcode.code]
  div_event := by simp [hevent, EventRegs.cleared, Event.code]
  unknown_event := by simp [hevent, EventRegs.cleared, Event.code, Opcode.code]

/-- After a step on a line the record is valid and names the line before `pc`. -/
theorem inv_of_recorded {e : Event} {op : Opcode} {k : BitVec 2} (hmem : t.MemoryInv) (hprog : t.ProgramInv p)
    (hpc : t.pc ≤ t.progLen) (hrec : s.Recorded t e op k) (hrecord : t.RecordInv) : t.Inv p where
  mem_wf := hmem.mem_wf
  modified_wf := hmem.modified_wf
  written := hmem.written
  pc_le := hpc
  prog_le := hprog.prog_le
  lines_ok := hprog.lines_ok
  latches := hrecord.latches
  event_cleared := by simp [hrec.2]
  event_pc := by simp [hrec.1, hrec.2]
  event_code := hrecord.event_code
  event_op := hrecord.event_op
  fault_event := hrecord.fault_event
  hlt_event := hrecord.hlt_event
  div_event := hrecord.div_event
  unknown_event := hrecord.unknown_event

/-! ## Reset and LOAD (70_reset_and_hazards.md R230; 41_execution_engine.md R129, R130) -/

/-- Settles O40: memory and program store are empty after reset. -/
theorem resetMeetsTheInvariant : Obligations.ResetMeetsTheInvariant := by
  intro p
  obtain ⟨hmem, hmodified⟩ := reset_memory_wf p
  exact inv_of_cleared ⟨hmem, hmodified, fun a ha => absurd (memRead_resetWith p a) ha⟩
    ⟨Nat.zero_le _, fun l hl => absurd hl List.not_mem_nil⟩ rfl rfl rfl rfl

/-- What `loadRefuses` lets through is a legal program store. -/
theorem loaded_programInv {lines : List Line} (haccepted : ¬loadRefuses p lines = true) : (s.loaded lines).ProgramInv p := by
  rw [loadRefuses_iff, not_or, Nat.not_lt] at haccepted
  obtain ⟨hcount, hlength⟩ := haccepted
  refine ⟨hcount, fun l hl => ?_⟩
  obtain ⟨hmem, htokens⟩ := (mem_keptLines lines l).mp hl
  exact ⟨by simpa [isBlank] using htokens, Nat.not_lt.mp fun hlong => hlength ⟨l, hmem, htokens, hlong⟩⟩

/-- A LOAD, accepted or refused, keeps the invariant. -/
theorem load_inv (hinv : s.Inv p) (lines : List Line) : (s.load p lines).2.Inv p := by
  by_cases hrefused : loadRefuses p lines = true
  · rwa [load_of_refused hrefused]
  · rw [load_of_accepted hrefused]
    have hmem : (s.loaded lines).MemoryInv := ⟨hinv.mem_wf, hinv.modified_wf, hinv.written⟩
    exact inv_of_cleared hmem (loaded_programInv hrefused) rfl rfl rfl rfl

/-! ## Steps -/

/-- A word that a MOV writes has its modified bit set with it; every other word keeps both. -/
theorem memWrite_memoryInv (h : s.MemoryInv) (a : Addr) (v : Word) : (s.memWrite a v).MemoryInv := by
  obtain ⟨hmem, hmodified⟩ := memWrite_wf s a v h.mem_wf h.modified_wf
  refine ⟨hmem, hmodified, fun b hb => ?_⟩
  by_cases hba : b = a
  · rw [hba, isModified_memWrite_same]
  · rw [memRead_memWrite_other s a b v hba] at hb
    rw [isModified_memWrite_other s a b v hba, h.written b hb]

/-- Two states with the same memory and modified set agree on the invariant of both. -/
theorem State.MemoryInv.congr (h : s.MemoryInv) (hmem : t.mem = s.mem) (hmodified : t.modified = s.modified) : t.MemoryInv := by
  refine ⟨by rw [hmem]; exact h.mem_wf, by rw [hmodified]; exact h.modified_wf, fun a ha => ?_⟩
  rw [memRead_congr hmem] at ha
  rw [isModified_congr hmodified, h.written a ha]

theorem step_memoryInv (h : s.MemoryInv) (hstep : step s = .next t) : t.MemoryInv := by
  rcases step_memory_cases hstep with ⟨hmem, hmodified⟩ | ⟨_, a, _, v, -, -, hmem, hmodified⟩
  · exact h.congr hmem hmodified
  · exact (memWrite_memoryInv h a v).congr hmem hmodified

/-- The codes an event and an opcode record. -/
theorem event_code_le (e : Event) : e.code.toNat ≤ 4 := by
  cases e <;> decide

theorem opcode_code_le (op : Opcode) : op.code.toNat ≤ 6 := by
  cases op <;> decide

theorem three_le_event_code (e : Event) : 3 ≤ e.code.toNat ↔ e = .operandParseError ∨ e = .addressOutOfRange := by
  cases e <;> decide

/-- A record of an event and an opcode is legal when latches, opcode and operand fit the event. -/
theorem State.Recorded.recordInv {e : Event} {op : Opcode} {k : BitVec 2} (hrec : s.Recorded t e op k)
    (hfault : t.faultFlag = true ↔ e = .operandParseError ∨ e = .addressOutOfRange)
    (hhlt : t.hltFlag = true ↔ e = .ok ∧ op = .hlt) (hdiv : e = .divisionByZero → op = .div ∧ k = 2)
    (hunknown : e = .unknownInstruction ↔ op = .unknown) : t.RecordInv := by
  obtain ⟨-, hevent⟩ := hrec
  constructor
  case latches =>
    rw [hhlt, hfault]
    rintro ⟨⟨rfl, -⟩, he⟩
    simp at he
  case event_code => rw [hevent]; exact event_code_le e
  case event_op => rw [hevent]; exact opcode_code_le op
  case fault_event => rw [hfault, hevent, three_le_event_code]
  case hlt_event => simp [hevent, hhlt]
  case div_event => simpa [hevent] using hdiv
  case unknown_event => simpa [hevent] using hunknown

/-- Each outcome of a line, from clear latches, leaves a legal record. -/
theorem LineOutcome.recordInv {line : Line} (h : LineOutcome s t line) (hhlt : s.hltFlag = false) (hfault : s.faultFlag = false) :
    t.RecordInv := by
  cases h with
  | completed i _ hnotHlt hnotUnknown _ hrec hsame =>
    obtain ⟨-, hhlt', hfault'⟩ := hsame
    exact hrec.recordInv (by simp [hfault', hfault]) (by simp [hhlt', hhlt, opcode_eq_hlt_iff, hnotHlt]) (by simp)
      (by simp [opcode_eq_unknown_iff, hnotUnknown])
  | hlt _ hrec _ hlatch hfault' => exact hrec.recordInv (by simp [hfault', hfault]) (by simp [hlatch]) (by simp) (by simp)
  | divisionByZero _ _ _ _ hrec hsame =>
    obtain ⟨-, hhlt', hfault'⟩ := hsame
    exact hrec.recordInv (by simp [hfault', hfault]) (by simp [hhlt', hhlt]) (by simp) (by simp)
  | unknown _ hrec hsame =>
    obtain ⟨-, hhlt', hfault'⟩ := hsame
    exact hrec.recordInv (by simp [hfault', hfault]) (by simp [hhlt', hhlt]) (by simp) (by simp)
  | structural e k hd hrec _ hhlt' hfault' =>
    have hop := decode_fault_opcode hd
    exact hrec.recordInv (by simp [hfault', eventOfError_cases]) (by cases e <;> simp [hhlt', hhlt, eventOfError])
      (by cases e <;> simp [eventOfError]) (by cases e <;> simp [hop, eventOfError])

/-- Settles O42: a step without a fetched line changes nothing; one on a line keeps memory and program store legal and records the
line before `pc`. -/
theorem stepKeepsTheInvariant : Obligations.StepKeepsTheInvariant := by
  intro p s t hinv hstep
  rcases step_halted_or_fetched hstep with ⟨-, rfl⟩ | ⟨line, hfetch⟩
  · exact hinv
  · have h := step_lineOutcome hfetch hstep
    obtain ⟨hhlt, hfault, hlt⟩ := (runState_ready_iff s).mp (fetchLine_some hfetch).1
    obtain ⟨e, k, hrec⟩ := h.recorded
    have hlen : t.progLen = s.progLen := congrArg List.length h.prog_eq
    have hprog : t.ProgramInv p := ⟨hlen ▸ hinv.prog_le, h.prog_eq ▸ hinv.lines_ok⟩
    have hpc : t.pc ≤ t.progLen := by rw [hrec.1, hlen]; exact hlt
    exact inv_of_recorded (step_memoryInv hinv.memoryInv hstep) hprog hpc hrec (h.recordInv hhlt hfault)

/-- A legal state holds no blank line, so its step answers. -/
theorem step_next_of_inv (hinv : s.Inv p) : ∃ t, step s = .next t := by
  cases hrun : s.runState with
  | halted => exact ⟨s, step_halted hrun⟩
  | ready =>
    obtain ⟨line, -, hfetch⟩ := fetchLine_ready hrun
    cases hd : decode line with
    | instr i =>
      obtain ⟨t, ht⟩ := exec_next i s
      exact ⟨t, (step_instr hfetch hd).trans ht⟩
    | fault e k => exact ⟨_, step_fault hfetch hd⟩
    | blank =>
      obtain ⟨hnotBlank, -⟩ := hinv.lines_ok line (fetchLine_mem hfetch)
      simp [decode_blank hd] at hnotBlank

/-! ## Runs and the other transactions (41_execution_engine.md R129 to R135) -/

/-- A run from a legal state answers a legal state, whatever its budget. -/
theorem runSteps_inv (budget : Nat) (hinv : s.Inv p) : ∃ t, runSteps budget s = .next t ∧ t.Inv p := by
  induction budget generalizing s with
  | zero => exact ⟨s, rfl, hinv⟩
  | succ budget ih =>
    cases hrun : s.runState with
    | halted => exact ⟨s, (runSteps_halted _ hrun).1, hinv⟩
    | ready =>
      obtain ⟨u, hu⟩ := step_next_of_inv hinv
      rw [(runSteps_ready budget hrun hu).1]
      exact ih (stepKeepsTheInvariant p s u hinv hu)

/-- Every transaction answers in a legal state, and its answer leaves a legal state. -/
theorem transact_inv (tr : Transaction) (hinv : s.Inv p) : ∃ ans, transact p tr s = .next ans ∧ ans.state.Inv p := by
  cases tr with
  | reset => exact ⟨_, rfl, resetMeetsTheInvariant p⟩
  | load lines => exact ⟨_, rfl, load_inv hinv lines⟩
  | step =>
    obtain ⟨t, ht⟩ := step_next_of_inv hinv
    exact ⟨_, by rw [transact, ht, answerOf], stepKeepsTheInvariant p s t hinv ht⟩
  | run =>
    obtain ⟨t, ht, hinv'⟩ := runSteps_inv s.stepsLeft hinv
    exact ⟨_, by rw [transact, State.run, ht, answerOf], hinv'⟩
  | _ => exact ⟨_, rfl, hinv⟩

/-- Settles O43: the answer is the one that `transact_inv` finds legal. -/
theorem transactionsKeepTheInvariant : Obligations.TransactionsKeepTheInvariant := by
  intro p tr s ans hinv h
  obtain ⟨ans', h', hinv'⟩ := transact_inv tr hinv
  exact Host.Outcome.next.inj (h'.symm.trans h) ▸ hinv'

/-- Settles O44, the other half of `transact_inv`. -/
theorem transactionsAlwaysComplete : Obligations.TransactionsAlwaysComplete := by
  intro p tr s hinv
  obtain ⟨ans, hans, -⟩ := transact_inv tr hinv
  exact ⟨ans, hans⟩

/-! ## The event port (41_execution_engine.md R131; 60_exceptions.md R200, R201, R217) -/

theorem eventPort_ready (hready : s.runState = .ready) (hstep : step s = .next t) : eventPort s = some t.lastRecord := by
  simp [eventPort, hready, hstep]

/-- Settles O30: in Ready the step answers and its record is the one on the port; in Halted there is none. -/
theorem oneEventRecordPerReadyStep : Obligations.OneEventRecordPerReadyStep := by
  refine fun p s hinv => ⟨fun hready => ?_, fun hhalted => ⟨eventPort_halted hhalted, ?_⟩⟩
  · obtain ⟨t, hstep⟩ := step_next_of_inv hinv
    obtain ⟨-, hevpc, hvalid⟩ := step_ready_advances hready hstep
    have hport := eventPort_ready hready hstep
    exact ⟨t, t.lastRecord, hstep, hport, rfl, rfl, rfl, rfl, hvalid, hevpc,
      (stepKeepsTheInvariant p s t hinv hstep).event_code, by rw [transact, hstep, hport]; rfl⟩
  · rw [transact, step_halted hhalted, eventPort_halted hhalted]
    rfl

/-- Settles O51: the codes tell the events apart, and among the OK records the opcode tells HLT's. -/
theorem severityOfEventRecords : Obligations.SeverityOfEventRecords := by
  refine fun i op k => ⟨?_, rfl, rfl, rfl, rfl⟩
  show (if op.code = Opcode.hlt.code then some Severity.info else some Severity.debug) = _
  simp only [opcode_code_inj]

/-! ## The status fields (10_state.md R29, R30, R32; 00_scope.md R6) -/

/-- The code tells the reason. -/
theorem haltReason_code_inj (a b : HaltReason) : a.code = b.code ↔ a = b := by
  cases a <;> cases b <;> decide

/-- HALT_REASON is none in Ready, and in Halted it goes by the latches, FAULT first. -/
theorem haltReason_iff (s : State) :
    (s.haltReason = .none ↔ s.runState = .ready) ∧ (s.haltReason = .fault ↔ s.faultFlag = true) ∧
    (s.haltReason = .hlt ↔ s.faultFlag = false ∧ s.hltFlag = true) ∧
    (s.haltReason = .programEnd ↔ s.faultFlag = false ∧ s.hltFlag = false ∧ s.progLen ≤ s.pc) := by
  cases hfault : s.faultFlag with
  | true =>
    obtain ⟨hhalted, hreason⟩ := faultFlag_halts hfault
    simp [hhalted, hreason]
  | false =>
    cases hhlt : s.hltFlag with
    | true =>
      obtain ⟨hhalted, hreason⟩ := hltFlag_halts hhlt
      simp [hhalted, hreason hfault]
    | false =>
      by_cases hpc : s.progLen ≤ s.pc
      · obtain ⟨hhalted, hreason⟩ := programEnd_halts hhlt hfault hpc
        simp [hhalted, hreason, hpc]
      · have hready : s.runState = .ready := (runState_ready_iff s).mpr ⟨hhlt, hfault, Nat.not_le.mp hpc⟩
        simp [State.haltReason, hready, hpc]

/-- Settles O39: the tables hold in every state with `pc ≥ N` for END, and a legal `pc` is never past `N`. -/
theorem runStateAndHaltReasonTables : Obligations.RunStateAndHaltReasonTables := by
  refine ⟨rfl, rfl, fun p s hinv => ?_⟩
  have hend : s.progLen ≤ s.pc ↔ s.pc = s.progLen := by have := hinv.pc_le; omega
  obtain ⟨hnone, hfault, hhlt, hprogramEnd⟩ := haltReason_iff s
  refine ⟨?_, (haltReason_code_inj _ .none).trans hnone, (haltReason_code_inj _ .fault).trans hfault,
    (haltReason_code_inj _ .hlt).trans hhlt, (haltReason_code_inj _ .programEnd).trans ?_, hinv.latches⟩
  · rw [runState_halted_iff, hend]
  · rw [hprogramEnd, hend]

/-- `PC_WIDTH` bits hold `PROG_MAX`. -/
theorem progMax_lt_two_pow_pcWidth (p : Config.Params) : p.progMax < 2 ^ Config.pcWidth p := by
  unfold Config.pcWidth
  split
  · omega
  · exact Nat.lt_log2_self

/-- No smaller number of bits does. -/
theorem pcWidth_le {k : Nat} (h : p.progMax < 2 ^ k) : Config.pcWidth p ≤ k := by
  unfold Config.pcWidth
  split
  · exact Nat.zero_le k
  · next hne => exact (Nat.log2_lt hne).mpr h

/-- A valid record names a line before `pc`, and a cleared one line 0. -/
theorem eventPc_le_pc (hinv : s.Inv p) : s.event.pc ≤ s.pc := by
  cases hvalid : s.event.valid with
  | true => exact Nat.le_of_succ_le (hinv.event_pc hvalid).le
  | false =>
    obtain ⟨hevent, -⟩ := hinv.event_cleared hvalid
    rw [hevent]
    exact Nat.zero_le _

/-- Settles O49: every index is at most `N`, which is at most `PROG_MAX`. -/
theorem statusFieldsAreInRange : Obligations.StatusFieldsAreInRange := by
  intro p s hinv
  have hpc := hinv.pc_le
  have hlen := hinv.prog_le
  have hwidth := progMax_lt_two_pow_pcWidth p
  have hevpc := eventPc_le_pc hinv
  refine ⟨hpc, hlen, fun hvalid => ?_, hinv.event_code, hinv.event_op, ?_, ?_, ?_, fun k => pcWidth_le⟩
  · have hbefore : s.event.pc + 1 = s.pc := hinv.event_pc hvalid
    show s.event.pc < s.progLen
    omega
  · exact (hpc.trans hlen).trans_lt hwidth
  · exact hlen.trans_lt hwidth
  · exact ((hevpc.trans hpc).trans hlen).trans_lt hwidth

end Sys2Proof.Machine
end

section
/-! PROOFS. RUN: it repeats the step until Halted, and where it ends (41_execution_engine.md R131, R134, R138). -/

namespace Sys2Proof.Machine

/-! ## Runs of the core -/

/-- A run of the core takes its first step first. -/
theorem coreRun_succ {s u : State} (hstep : step s = .next u) (k : Nat) :
    Sys2Proof.core.run (k + 1) s = Sys2Proof.core.run k u := by
  have hcore : Sys2Proof.core.step s = .next u := hstep
  simp only [Host.Core.run, hcore]

/-- What a RUN of a given budget from `s` is: `k` steps of the core, each from Ready and with its record on the port, that
end Halted in `t`. -/
structure RunsInSteps (budget : Nat) (s : State) (k : Nat) (t : State) : Prop where
  run : runSteps budget s = .next t
  steps : Sys2Proof.core.run k s = .next t
  halted : t.runState = .halted
  pc : t.pc = s.pc + k
  count : (runEvents budget s).length = k
  records : ∀ j, j < k → ∃ u, Sys2Proof.core.run j s = .next u ∧ u.runState = .ready ∧ eventPort u = (runEvents budget s)[j]?

/-- Already Halted, a run takes no step. -/
theorem runsInSteps_halted (budget : Nat) {s : State} (h : s.runState = .halted) : RunsInSteps budget s 0 s where
  run := (runSteps_halted budget h).1
  steps := rfl
  halted := h
  pc := rfl
  count := by rw [(runSteps_halted budget h).2, List.length_nil]
  records := fun j hj => absurd hj j.not_lt_zero

/-- A run from Ready is its first step and the run after it. -/
theorem RunsInSteps.cons {budget k : Nat} {s u t : State} (hready : s.runState = .ready) (hstep : step s = .next u)
    (h : RunsInSteps budget u k t) : RunsInSteps (budget + 1) s (k + 1) t := by
  obtain ⟨hrun, hevents⟩ := runSteps_ready budget hready hstep
  obtain ⟨hpc, -⟩ := step_ready_advances hready hstep
  refine ⟨hrun.trans h.run, (coreRun_succ hstep k).trans h.steps, h.halted, ?_, ?_, fun j hj => ?_⟩
  · rw [h.pc, hpc]; omega
  · rw [hevents, List.length_cons, h.count]
  · rw [hevents]
    cases j with
    | zero => exact ⟨s, rfl, hready, eventPort_ready hready hstep⟩
    | succ j =>
      obtain ⟨v, hv, hvready, hport⟩ := h.records j (by omega)
      exact ⟨v, (coreRun_succ hstep j).trans hv, hvready, hport⟩

/-- A budget of `N - pc` steps, or more, suffices: each step from Ready raises `pc` by 1 and keeps `N` (R138). -/
theorem exists_runsInSteps {p : Config.Params} (budget : Nat) {s : State} (hinv : s.Inv p) (hbudget : s.progLen - s.pc ≤ budget) :
    ∃ k t, k ≤ s.progLen - s.pc ∧ RunsInSteps budget s k t := by
  induction budget generalizing s with
  | zero =>
    have hhalted : s.runState = .halted := (runState_halted_iff s).mpr (.inr (.inr (by omega)))
    exact ⟨0, s, Nat.zero_le _, runsInSteps_halted 0 hhalted⟩
  | succ budget ih =>
    cases hrun : s.runState with
    | halted => exact ⟨0, s, Nat.zero_le _, runsInSteps_halted _ hrun⟩
    | ready =>
      obtain ⟨u, hstep⟩ := step_next_of_inv hinv
      obtain ⟨hpc, -⟩ := step_ready_advances hrun hstep
      have hlen : u.progLen = s.progLen := congrArg List.length (step_ready_prog hrun hstep)
      obtain ⟨-, -, hlt⟩ := (runState_ready_iff s).mp hrun
      obtain ⟨k, t, hk, h⟩ := ih (stepKeepsTheInvariant p s u hinv hstep) (by omega)
      exact ⟨k + 1, t, by omega, h.cons hrun hstep⟩

/-- Settles O46: RUN has the budget `N - pc`; a run that starts Halted ends in the state it started in, after 0 steps. -/
theorem runEndsHalted : Obligations.RunEndsHalted := by
  intro p s hinv
  obtain ⟨k, t, hk, h⟩ := exists_runsInSteps s.stepsLeft hinv (le_refl _)
  have hrun : s.run = .next t := h.run
  refine ⟨k, t, runEvents s.stepsLeft s, hk, by rw [transact, hrun, answerOf], h.steps, hrun, h.halted, h.pc, rfl, h.count,
    h.records, fun hhalted => ?_⟩
  rw [← h.count, (runSteps_halted s.stepsLeft hhalted).2, List.length_nil]

/-! ## Where a run ends (41_execution_engine.md R138) -/

/-- A line that a run passes: it decodes, and it is no HLT. -/
def IsPassed (line : Line) : Prop := ∃ i, decode line = .instr i ∧ i ≠ .hlt

/-- Both latches are clear. -/
def State.LatchesClear (s : State) : Prop := s.hltFlag = false ∧ s.faultFlag = false

/-- With clear latches and a line at `pc`, that line is fetched. -/
theorem fetchLine_of_clear {s : State} {line : Line} (hclear : s.LatchesClear) (hline : s.prog[s.pc]? = some line) :
    s.runState = .ready ∧ s.fetchLine = some line := by
  obtain ⟨hlt, -⟩ := List.getElem?_eq_some_iff.mp hline
  have hready : s.runState = .ready := (runState_ready_iff s).mpr ⟨hclear.1, hclear.2, hlt⟩
  exact ⟨hready, (fetchLine_of_ready hready).trans hline⟩

/-- A passed line is stepped over: the latches stay clear. -/
theorem step_of_isPassed {s : State} {line : Line} (hclear : s.LatchesClear) (hline : s.prog[s.pc]? = some line)
    (hpassed : IsPassed line) :
    ∃ u, step s = .next u ∧ u.LatchesClear ∧ u.prog = s.prog ∧ u.pc = s.pc + 1 := by
  obtain ⟨hready, hfetch⟩ := fetchLine_of_clear hclear hline
  obtain ⟨i, hd, hi⟩ := hpassed
  obtain ⟨u, hu⟩ := exec_next i s
  have hstep : step s = .next u := (step_instr hfetch hd).trans hu
  have houtcome := step_lineOutcome hfetch hstep
  obtain ⟨hpc, -⟩ := step_ready_advances hready hstep
  obtain ⟨hhlt, hfault⟩ := hclear
  have hhlt' : ¬u.hltFlag = true := by simp [houtcome.hltFlag_iff, hhlt, hd, hi]
  have hfault' : ¬u.faultFlag = true := by simp [houtcome.faultFlag_iff, hfault, hd]
  exact ⟨u, hstep, ⟨by simpa using hhlt', by simpa using hfault'⟩, houtcome.prog_eq, hpc⟩

/-- A run passes a stretch of `n` such lines in `n` steps, and goes on from the line after them. -/
theorem run_passes_lines (n : Nat) {s : State} (hclear : s.LatchesClear) (hlen : s.pc + n ≤ s.progLen)
    (hpassed : ∀ j l, s.pc ≤ j → j < s.pc + n → s.prog[j]? = some l → IsPassed l) :
    ∃ u, u.LatchesClear ∧ u.prog = s.prog ∧ u.pc = s.pc + n ∧ ∀ budget,
      runSteps (budget + n) s = runSteps budget u ∧ (runEvents (budget + n) s).length = (runEvents budget u).length + n := by
  induction n generalizing s with
  | zero => exact ⟨s, hclear, rfl, rfl, fun budget => ⟨rfl, rfl⟩⟩
  | succ n ih =>
    have hpc : s.pc < s.prog.length := show s.pc < s.progLen by omega
    have hline : s.prog[s.pc]? = some s.prog[s.pc] := List.getElem?_eq_getElem hpc
    obtain ⟨hready, -⟩ := fetchLine_of_clear hclear hline
    obtain ⟨v, hstep, hvclear, hvprog, hvpc⟩ := step_of_isPassed hclear hline (hpassed _ _ (le_refl _) (by omega) hline)
    have hvlen : v.progLen = s.progLen := congrArg List.length hvprog
    obtain ⟨u, huclear, huprog, hupc, hrun⟩ := ih hvclear (by omega) fun j l hj hjn hl =>
      hpassed j l (by omega) (by omega) (hvprog ▸ hl)
    refine ⟨u, huclear, huprog.trans hvprog, by omega, fun budget => ?_⟩
    obtain ⟨hsteps, hevents⟩ := runSteps_ready (budget + n) hready hstep
    obtain ⟨hsteps', hevents'⟩ := hrun budget
    exact ⟨hsteps.trans hsteps', by rw [← Nat.add_assoc, hevents, List.length_cons, hevents', Nat.add_assoc]⟩

/-- A run that passes every line before `h`, and whose step on the line at `h` leaves the block Halted, ends there. -/
theorem run_ends_after {s : State} {h : Nat} {line : Line} (hclear : s.LatchesClear) (hh : s.pc ≤ h)
    (hline : s.prog[h]? = some line) (hpassed : ∀ j l, s.pc ≤ j → j < h → s.prog[j]? = some l → IsPassed l)
    {reason : HaltReason}
    (hstop : ∀ u : State, u.LatchesClear → u.fetchLine = some line →
      ∃ t, step u = .next t ∧ t.runState = .halted ∧ t.haltReason = reason) :
    ∃ t, s.run = .next t ∧ t.pc = h + 1 ∧ t.haltReason = reason ∧ (runEvents s.stepsLeft s).length = h + 1 - s.pc := by
  have hlt : h < s.progLen := (List.getElem?_eq_some_iff.mp hline).1
  obtain ⟨u, huclear, huprog, hupc, hrun⟩ := run_passes_lines (h - s.pc) hclear (by omega) fun j l hj hjh hl =>
    hpassed j l hj (by omega) hl
  have hupc' : u.pc = h := by omega
  obtain ⟨hready, hfetch⟩ := fetchLine_of_clear huclear (line := line) (by rw [huprog, hupc']; exact hline)
  obtain ⟨t, hstep, hhalted, hreason⟩ := hstop u huclear hfetch
  obtain ⟨hpc, -⟩ := step_ready_advances hready hstep
  obtain ⟨hsteps, hevents⟩ := runSteps_ready (s.progLen - h - 1) hready hstep
  obtain ⟨hend, hnone⟩ := runSteps_halted (s.progLen - h - 1) hhalted
  obtain ⟨hsteps', hevents'⟩ := hrun (s.progLen - h - 1 + 1)
  have hbudget : s.stepsLeft = s.progLen - h - 1 + 1 + (h - s.pc) := by rw [State.stepsLeft]; omega
  refine ⟨t, ?_, by omega, hreason, ?_⟩
  · rw [State.run, hbudget, hsteps', hsteps, hend]
  · rw [hbudget, hevents', hevents, hnone, List.length_singleton]; omega

/-- The step on an HLT line, from clear latches, leaves the block Halted with reason HLT. -/
theorem step_hlt_halts {u : State} {line : Line} (hclear : u.LatchesClear) (hfetch : u.fetchLine = some line)
    (hd : decode line = .instr .hlt) : ∃ t, step u = .next t ∧ t.runState = .halted ∧ t.haltReason = .hlt := by
  obtain ⟨t, hexec, hlatch, -, -, hfault, -⟩ := exec_hlt_effect u
  obtain ⟨hhalted, hreason⟩ := hltFlag_halts hlatch
  exact ⟨t, (step_instr hfetch hd).trans hexec, hhalted, hreason (hfault.trans hclear.2)⟩

/-- The step on a line that does not decode leaves the block Halted with reason FAULT. -/
theorem step_fault_halts {u : State} {line : Line} {e : StructuralError} {k : BitVec 2} (hfetch : u.fetchLine = some line)
    (hd : decode line = .fault e k) : ∃ t, step u = .next t ∧ t.runState = .halted ∧ t.haltReason = .fault :=
  ⟨_, step_fault hfetch hd, takeStructuralError_halts _ e k u⟩

/-- A run that passes every line to the end of the program ends at `N` with reason END. -/
theorem run_ends_at_program_end {s : State} (hclear : s.LatchesClear) (hpc : s.pc ≤ s.progLen)
    (hpassed : ∀ j l, s.pc ≤ j → s.prog[j]? = some l → IsPassed l) :
    ∃ t, s.run = .next t ∧ t.pc = s.progLen ∧ t.haltReason = .programEnd ∧
      (runEvents s.stepsLeft s).length = s.progLen - s.pc := by
  obtain ⟨u, huclear, huprog, hupc, hrun⟩ := run_passes_lines (s.progLen - s.pc) hclear (by omega) fun j l hj _ hl =>
    hpassed j l hj hl
  obtain ⟨hsteps, hevents⟩ := hrun 0
  have hulen : u.progLen = s.progLen := congrArg List.length huprog
  have hbudget : s.stepsLeft = 0 + (s.progLen - s.pc) := by rw [State.stepsLeft, Nat.zero_add]
  refine ⟨u, ?_, by omega, (programEnd_halts huclear.1 huclear.2 (by omega)).2, ?_⟩
  · rw [State.run, hbudget, hsteps, runSteps]
  · rw [hbudget, hevents, runEvents, List.length_nil, Nat.zero_add]

/-- Settles O47: the lines before the stop are passed, and the stop is an HLT, a structural error, or the end of the program. -/
theorem runEndsAtTheFirstStop : Obligations.RunEndsAtTheFirstStop := by
  intro p s hinv hhlt hfault
  have hclear : s.LatchesClear := ⟨hhlt, hfault⟩
  refine ⟨fun hready => ?advances, ?bounded, fun h line hh hline hd hpassed => ?firstHlt,
    fun h line e k hh hline hd hpassed => ?firstError, run_ends_at_program_end hclear hinv.pc_le⟩
  case advances =>
    obtain ⟨-, -, hlt⟩ := (runState_ready_iff s).mp hready
    obtain ⟨t, hstep⟩ := step_next_of_inv hinv
    exact ⟨hlt, t, hstep, (step_ready_advances hready hstep).1⟩
  case bounded =>
    obtain ⟨k, t, hk, hrun⟩ := exists_runsInSteps s.stepsLeft hinv (le_refl _)
    exact ⟨t, hrun.run, hrun.halted, by rw [hrun.count]; exact hk⟩
  case firstHlt =>
    exact run_ends_after hclear hh hline hpassed fun u huclear hfetch => step_hlt_halts huclear hfetch hd
  case firstError =>
    exact run_ends_after hclear hh hline hpassed fun u _ hfetch => step_fault_halts hfetch hd

end Sys2Proof.Machine
end
